-- ==== Sys2Proof/Word.lean ====
section
/-! DEFINITION. The word of the machine: one unsigned byte (rules R1 and R4). -/

namespace Sys2Proof

/-- A register value, a memory cell, an operand byte, an opcode, a stack entry: an unsigned 8-bit
integer, 0 to 255 (rules R1 and R4). -/
abbrev Byte := BitVec 8

end Sys2Proof
end

