-- ==== Sys2Proof/Config.lean ====
section
/-! DEFINITION. What is fixed for the machine: the sizes of rule R1, the six mnemonics and the two
dispatch classes, and the default of each parameter of rule R2. Nothing here is state (rule R29).
There is no free value: the spec states every result. -/

namespace Sys2Proof

/-- The six mnemonics of the Instruction Descriptor table (rules R53 and R55). -/
inductive Mnemonic where
  | hlt | ldi | prn | mul | push | pop
deriving DecidableEq, Repr

/-- The class of a descriptor row; it selects the dispatch table (rules R55 and R76). -/
inductive OpClass where
  | general | alu
deriving DecidableEq, Repr

/-- One row of the Instruction Descriptor table beside its opcode (rules R23 and R55). -/
structure Descriptor where
  mnemonic : Mnemonic
  operands : Nat
  cls      : OpClass
deriving DecidableEq, Repr

namespace Config

/-- `NREG`, the number of registers (rule R1). -/
abbrev nreg : Nat := 8

/-- `MEMSIZE`, the number of memory cells (rule R1). -/
abbrev memSize : Nat := 256

/-- `REG_RESET`: the default of the spec is all 0 (rules R2 and R28, decision D2). DESIGN CHOICE,
unsafe, log entry 3. -/
def regReset : Vector Byte nreg := Vector.replicate nreg 0#8

/-- `MEM_FILL`: the default of the spec is all 0 (rules R2 and R28, decision D3). It is what an
unlisted address of the memory reads as. DESIGN CHOICE, unsafe, log entry 4. -/
def memFill : Nat → Byte := fun _ => 0#8

/-- `ENTRY`: the default is 0 (rules R2 and R141, decision D8). -/
def entry : Nat := 0

/-- `STACK_CAPACITY`: the default is unbounded, `none` (rules R2, R17 and R108, decision D5).
DESIGN CHOICE, log entry 6. -/
def stackCapacity : Option Nat := none

end Config

end Sys2Proof
end

