-- ==== Sys2Proof/Syntax.lean ====
section
/-! DEFINITION. The instructions as syntax: one constructor per row of spec/opcode_table.json. -/

namespace Sys2Proof

/-- An instruction with its operand bytes. A register operand is the whole byte, 0 to 255, not masked
to three bits; 8 to 255 decode and fail at execution (rules R52 and R57). -/
inductive Instr where
  /-- HLT, halt (rule R90). -/
  | hlt
  /-- LDI, load the immediate `imm` into register `rd` (rule R95). -/
  | ldi (rd imm : Byte)
  /-- PRN, emit register `rs` (rule R96). -/
  | prn (rs : Byte)
  /-- MUL, multiply register `ra` by register `rb` into `ra` (rule R101). -/
  | mul (ra rb : Byte)
  /-- PUSH, push register `rs` (rule R105). -/
  | push (rs : Byte)
  /-- POP, pop into register `rd` (rule R106). -/
  | pop (rd : Byte)
deriving DecidableEq, Repr

end Sys2Proof
end

