-- ==== Sys2Proof/WellFormed.lean ====
section
/-! DEFINITION. Which instructions a program may use: every register operand names a register
(rule R145(c)). The decoder accepts the others too (rule R57), and each of them runs: it takes
`OutOfRange`. No statement about decoding or stepping shuts them out. -/

namespace Sys2Proof

/-- A register operand names a register: 0 to 7 (rule R52). -/
abbrev validReg (r : Byte) : Prop := r.toNat < Config.nreg

/-- Every register operand of the instruction names a register (rule R145(c)). An immediate is any
byte, so it has no check (rule R95, corner case (a)). -/
abbrev WellFormed (i : Instr) : Prop :=
  match i with
  | .hlt => True
  | .ldi rd _ => validReg rd
  | .prn rs => validReg rs
  | .mul ra rb => validReg ra ∧ validReg rb
  | .push rs => validReg rs
  | .pop rd => validReg rd

end Sys2Proof
end

