-- ==== Sys2Proof/Decode.lean ====
section
/-! DEFINITION. The encoding: opcode values, the Instruction Descriptor table, the decoder over bytes
and, after it, the encoder. Everything takes the opcode map `opc` (parameter OPC, rule R53) as an
argument; `decode` and `encode` fix it at the default of rule R54. -/

namespace Sys2Proof

/-- The default opcode values (rule R54; from general knowledge of the published LS-8, as the spec
says: PRESUMED, log entry 5). -/
def opcode : Mnemonic → Byte
  | .hlt => 0x01#8
  | .ldi => 0x82#8
  | .prn => 0x47#8
  | .mul => 0xA2#8
  | .push => 0x45#8
  | .pop => 0x46#8

/-- The Instruction Descriptor table (rule R55): operand count and dispatch class of each mnemonic. -/
def descriptor : Mnemonic → Descriptor
  | .hlt => ⟨.hlt, 0, .general⟩
  | .ldi => ⟨.ldi, 2, .general⟩
  | .prn => ⟨.prn, 1, .general⟩
  | .mul => ⟨.mul, 2, .alu⟩
  | .push => ⟨.push, 1, .general⟩
  | .pop => ⟨.pop, 1, .general⟩

/-- The operand count of a mnemonic (rules R50 and R55). -/
def operandCount (m : Mnemonic) : Nat := (descriptor m).operands

/-- The descriptor lookup by the whole opcode byte, line by line as rule R59 writes it; `none` is
`Illegal` (rule R56). -/
def lookup (opc : Mnemonic → Byte) (b : Byte) : Option Mnemonic :=
  if b = opc .hlt then some .hlt
  else if b = opc .ldi then some .ldi
  else if b = opc .prn then some .prn
  else if b = opc .mul then some .mul
  else if b = opc .push then some .push
  else if b = opc .pop then some .pop
  else none

/-- The instruction of a decoded mnemonic and its operand bytes (rule R52). A byte beyond the
mnemonic's operand count is not part of the instruction and is not looked at. -/
def assemble (m : Mnemonic) (opa opb : Byte) : Instr :=
  match m with
  | .hlt => .hlt
  | .ldi => .ldi opa opb
  | .prn => .prn opa
  | .mul => .mul opa opb
  | .push => .push opa
  | .pop => .pop opa

/-- Why bytes are no instruction. -/
inductive DecodeError where
  /-- There is no byte at all. -/
  | noBytes
  /-- The opcode byte has no descriptor row (rule R56). -/
  | illegalOpcode (b : Byte)
  /-- The operand bytes of this mnemonic run past the end of the bytes (rule R75). -/
  | missingOperand (m : Mnemonic)
deriving DecidableEq, Repr

/-- The operand bytes that follow an opcode of mnemonic `m`, taken in address order (rules R50 and
R51), and the bytes after the instruction. -/
def decodeOperands (m : Mnemonic) (rest : List Byte) : Except DecodeError (Instr × List Byte) :=
  match operandCount m, rest with
  | 0, rest => .ok (assemble m 0#8 0#8, rest)
  | 1, a :: rest => .ok (assemble m a 0#8, rest)
  | _ + 2, a :: b :: rest => .ok (assemble m a b, rest)
  | _, _ => .error (.missingOperand m)

/-- The decoder on any bytes: the instruction at their head and the bytes after it, or the reason why
there is none (rules R50, R51, R58 and R59). -/
def decodeBytes (opc : Mnemonic → Byte) (bytes : List Byte) :
    Except DecodeError (Instr × List Byte) :=
  match bytes with
  | [] => .error .noBytes
  | b :: rest =>
    match lookup opc b with
    | none => .error (.illegalOpcode b)
    | some m => decodeOperands m rest

/-- The decoder with the default opcode values (rule R54). -/
def decode (bytes : List Byte) : Except DecodeError (Instr × List Byte) := decodeBytes opcode bytes

/-- The mnemonic of an instruction. -/
def mnemonicOf : Instr → Mnemonic
  | .hlt => .hlt
  | .ldi _ _ => .ldi
  | .prn _ => .prn
  | .mul _ _ => .mul
  | .push _ => .push
  | .pop _ => .pop

/-- The operand bytes of an instruction, in address order (rules R51 and R52). -/
def operandBytes : Instr → List Byte
  | .hlt => []
  | .ldi rd imm => [rd, imm]
  | .prn rs => [rs]
  | .mul ra rb => [ra, rb]
  | .push rs => [rs]
  | .pop rd => [rd]

/-- The operand bytes of an instruction that are register indices, in the order of rule R52's table;
the immediate of LDI is none of them. -/
def regOperands : Instr → List Byte
  | .hlt => []
  | .ldi rd _ => [rd]
  | .prn rs => [rs]
  | .mul ra rb => [ra, rb]
  | .push rs => [rs]
  | .pop rd => [rd]

/-- The bytes of an instruction under the opcode map `opc`: the opcode, then its operands in address
order (rules R50, R51 and R60). -/
def encodeWith (opc : Mnemonic → Byte) (i : Instr) : List Byte := opc (mnemonicOf i) :: operandBytes i

/-- The bytes of an instruction with the default opcode values (rule R54). -/
def encode (i : Instr) : List Byte := encodeWith opcode i

/-- The width of an instruction in bytes, 1 plus its operand count (rule R50). -/
def width (i : Instr) : Nat := 1 + operandCount (mnemonicOf i)

/-- The longest width of an instruction (format OP2, rule R50). -/
def maxWidth : Nat := 3

/-- The bytes of a table word: bit 0 of `w` is the least significant bit of the opcode byte, the next
byte is bits 15..8, and so on; every bit at or above `nbits` is 0. As many bytes as the longest
instruction has. -/
def wordBytes (nbits w : Nat) : List Byte :=
  (List.range maxWidth).map fun k => BitVec.ofNat 8 (w % 2 ^ nbits / 256 ^ k)

/-- The instruction that the decoder reads from a word of spec/opcode_table.json. -/
def decodeTableWord (nbits w : Nat) : Option Instr :=
  match decode (wordBytes nbits w) with
  | .ok (i, _) => some i
  | .error _ => none

end Sys2Proof
end

