-- ==== Sys2Proof/Machine/State.lean ====
section
/-! DEFINITION. The state of the block (10_state.md), the reasons a step of the model can stop, and
the state right after reset (rules R28 and R140). -/

namespace Sys2Proof.Machine

/-- The run status. RUNNING, HALTED and FAULTED are those of rule R20. `idle` is the phase between
reset and launch, which rule R28 calls 'not RUNNING (the engine is idle until loaded and started)'
and gives no name: DESIGN CHOICE, safe, log entry 2. -/
inductive Status where
  | idle | running | halted | faulted
deriving DecidableEq, Repr

/-- Which index was out of range (rule R120). -/
inductive AccessKind where
  | memory | register
deriving DecidableEq, Repr

/-- The fault record: a cause together with the info that rule R120 records for it (rule R21). -/
inductive FaultRecord where
  /-- Code 1: the kind and the offending index, unreduced (rule R121). -/
  | outOfRange (kind : AccessKind) (index : Nat)
  /-- Code 2: the opcode byte and its address (rule R122). -/
  | illegalInstruction (opcode : Byte) (address : Nat)
  /-- Code 3: the opcode byte (rule R123); no step raises it. -/
  | unsupportedOperation (opcode : Byte)
  /-- Code 4: the address of the POP (rule R124). -/
  | stackUnderflow (address : Nat)
  /-- Code 5: the address of the PUSH (rule R125); only in a build with a finite capacity. -/
  | stackOverflow (address : Nat)
deriving DecidableEq, Repr

/-- Why the model's step stops. An error of the hardware is no such stop: it is a next state whose
status is FAULTED (rule R126). -/
inductive Fault where
  /-- Raised by `step` (through `cycle`) on an idle machine: between reset and launch there is no step
  (rule R28). Safe: the model stops where the spec defines nothing. -/
  | notStarted
  /-- Raised by `step` (through `cycle`) when the status is HALTED or FAULTED: no step is defined from
  either (rules R20 and R70). Safe: the model stops where the spec defines nothing. -/
  | runEnded
deriving DecidableEq, Repr

/-- Why the model gives no meaning. No instruction and no step of this model answers one of these:
they belong to the load interface, except the first, which the host's interface asks for. -/
inductive Refusal where
  /-- An instruction without a meaning: no arm of `exec` answers it. Safe. -/
  | notModelled (mnemonic : String)
  /-- Raised by `load`: the engine is not idle; loading happens only before the run (rules R110 and
  R116). Safe. -/
  | loadOutsideIdle
  /-- Raised by `load`: an image of more than 256 bytes (rule R110, decision D18). Safe. -/
  | imageTooLong (length : Nat)
  /-- Raised by `load`: an entry point above 256 (rule R111). Safe. -/
  | entryOutOfRange (entry : Nat)
deriving DecidableEq, Repr

/-- The memory as plain data: the cells that differ from the reset fill, by rising address. -/
abbrev Memory := List Host.Cell

/-- The state of the block (10_state.md). -/
structure State where
  /-- `x[0]` to `x[7]`, the general registers (rule R10). -/
  regs   : Vector Byte 8
  /-- The program counter, a natural number 0..256 (rule R14). -/
  pc     : Nat
  /-- The 256 memory cells (rules R16 and R30). -/
  mem    : List Host.Cell
  /-- `STK`, the call stack, oldest entry first (rule R17). `SP` is its length, see `sp`. -/
  stack  : List Byte
  /-- The run status (rule R20). -/
  status : Status
  /-- `cause` and `info`, absent when there is no value (rules R21 and R28). -/
  fault  : Option FaultRecord
  /-- `PLEN`, the number of loaded bytes, 0..256 (rule R22). -/
  plen   : Nat
  /-- `OUT`, the values PRN has emitted, oldest first (rule R24). -/
  out    : List Byte
deriving DecidableEq, Repr

/-- The machine right after reset, before the loader acts (rules R28 and R140). -/
def State.reset : State where
  regs := Config.regReset
  pc := 0
  mem := []
  stack := []
  status := .idle
  fault := none
  plen := 0
  out := []

/-- `SP`, the stack pointer: the number of entries on the stack (rule R17). -/
def State.sp (s : State) : Nat := s.stack.length

end Sys2Proof.Machine
end

