-- ==== Sys2Proof/Machine/Ops.lean ====
section
/-! DEFINITION. The named operations over the state: registers, memory cells, the call stack, the output
stream, raising a fault, and the end of an instruction. An operation that can fail answers the fault
record that is to be raised; nothing is written until the instruction completes (rule R5). -/

namespace Sys2Proof.Machine

/-! ### Plain updates, one field each -/

/-- The state with register `i` replaced (rule R12). -/
def setReg (i : Nat) (h : i < Config.nreg) (v : Byte) (s : State) : State :=
  { s with regs := s.regs.set i v h }

/-- The state with `pc <- t` (rule R14). -/
def setPc (t : Nat) (s : State) : State := { s with pc := t }

/-- The state with another memory. -/
def setMem (m : Memory) (s : State) : State := { s with mem := m }

/-- The state with another call stack. -/
def setStack (k : List Byte) (s : State) : State := { s with stack := k }

/-- The state with `status <- v` (rule R20). -/
def setStatus (v : Status) (s : State) : State := { s with status := v }

/-- `Emit(v)`: append `v` to `OUT`, and change nothing else (rule R24). -/
def emit (v : Byte) (s : State) : State := { s with out := s.out ++ [v] }

/-! ### Faults (rule R126) -/

/-- Fault entry, the meaning of `raise E(info)`: the status becomes FAULTED, the fault record is set,
and nothing else changes, `pc` included (rule R126, decision D9, log entry 7). There is no handler and
no return (rule R130). -/
def raise (f : FaultRecord) (s : State) : State := { s with status := .faulted, fault := some f }

/-- The end of an instruction of operand count `n` that started in `s`: a handler that completed keeps
all its writes and `pc` advances by `1 + n` (rule R78); a handler that raised has none of its writes
kept (rules R5, R77 and R127). -/
def complete (n : Nat) (s : State) (r : Except FaultRecord State) :
    Host.Outcome State Fault Refusal :=
  match r with
  | .ok t => .next (setPc (s.pc + 1 + n) t)
  | .error f => .next (raise f s)

/-! ### Registers (rules R11 and R12) -/

/-- Register read, `x[i]` (rule R11). -/
def readReg (i : Nat) (s : State) : Except FaultRecord Byte :=
  if h : i < Config.nreg then .ok s.regs[i] else .error (.outOfRange .register i)

/-- Register write, `x[i] <- v`: stores `v mod 256` (rule R12). -/
def writeReg (i v : Nat) (s : State) : Except FaultRecord State :=
  if h : i < Config.nreg then .ok (setReg i h (BitVec.ofNat 8 v) s)
  else .error (.outOfRange .register i)

/-! ### Memory cells (rules R31 and R32) -/

/-- The byte a memory holds at an address; an unlisted address holds its reset fill (rule R28). -/
def readCell (m : Memory) (a : Nat) : Byte :=
  match m with
  | [] => Config.memFill a
  | (k, v) :: rest => if k = a then v else readCell rest a

/-- The list with `(a, v)` in front, unless `v` is what an unlisted `a` reads as. -/
def consCell (a : Nat) (v : Byte) (m : Memory) : Memory :=
  if v = Config.memFill a then m else (a, v) :: m

/-- The memory with `v` at `a`, in canonical form. -/
def writeCell (m : Memory) (a : Nat) (v : Byte) : Memory :=
  match m with
  | [] => consCell a v []
  | (k, w) :: rest =>
    if a < k then consCell a v ((k, w) :: rest)
    else if a = k then consCell a v rest
    else (k, w) :: writeCell rest a v

/-- The canonical form of a memory: addresses strictly rising, each an address of the memory (rule R30),
and no entry equal to what an unlisted address reads as. -/
abbrev Memory.wf (m : Memory) : Prop :=
  m.Pairwise (fun c d => c.1 < d.1) ∧ ∀ c ∈ m, c.1 < Config.memSize ∧ c.2 ≠ Config.memFill c.1

/-- `M[a]`, the byte in the cell at `a`. -/
def State.cell (s : State) (a : Nat) : Byte := readCell s.mem a

/-- `MemRead(a, 1)` (rule R31). -/
def memRead (a : Nat) (s : State) : Except FaultRecord Byte :=
  if a < Config.memSize then .ok (s.cell a) else .error (.outOfRange .memory a)

/-- `MemWrite(a, 1, v)` (rule R32). Its value is a byte by its type (decision D24). Only the loader
writes memory. -/
def memWrite (a : Nat) (v : Byte) (s : State) : Except FaultRecord State :=
  if a < Config.memSize then .ok (setMem (writeCell s.mem a v) s) else .error (.outOfRange .memory a)

/-- The memory with `vs` written at `a`, `a + 1`, and so on (rule R110(a)). -/
def writeCells (vs : List Byte) (a : Nat) (m : Memory) : Memory :=
  match vs with
  | [] => m
  | v :: rest => writeCells rest (a + 1) (writeCell m a v)

/-- The memory whose 256 cells hold `fill`, in canonical form (parameter MEM_FILL, rule R111). -/
def filledMemory (fill : Nat → Byte) : Memory :=
  (List.range Config.memSize).filterMap fun a =>
    if fill a = Config.memFill a then none else some (a, fill a)

/-! ### The call stack (rules R17 to R19) -/

/-- `Push(v)` on a stack of capacity `cap` (`none` is unbounded): `STK[SP] <- v; SP <- SP + 1`, or
`StackOverflow` when `SP = STACK_CAPACITY` (rules R18 and R108). -/
def pushStack (cap : Option Nat) (v : Byte) (s : State) : Except FaultRecord State :=
  if cap = some s.sp then .error (.stackOverflow s.pc) else .ok (setStack (s.stack ++ [v]) s)

/-- `Pop()`: the top entry and the state without it, or `StackUnderflow` (rule R19). -/
def popStack (s : State) : Except FaultRecord (Byte × State) :=
  match s.stack.getLast? with
  | none => .error (.stackUnderflow s.pc)
  | some v => .ok (v, setStack s.stack.dropLast s)

end Sys2Proof.Machine
end

