-- ==== Sys2Proof/Machine/Operands.lean ====
section
/-! DEFINITION. The operand forms (rule R52): a register index is the whole operand byte, never masked
to three bits, and an immediate is the whole operand byte, used as is. -/

namespace Sys2Proof.Machine

/-- A register-index operand as a number, the whole byte (rule R52). -/
def regIndex (op : Byte) : Nat := op.toNat

/-- An immediate operand as a number: no extension, no scaling, no shift (rule R52). -/
def immediate (op : Byte) : Nat := op.toNat

/-- The register that an operand byte names, read (rules R11 and R52). -/
def readOperand (op : Byte) (s : State) : Except FaultRecord Byte := readReg (regIndex op) s

/-- The register that an operand byte names, written (rules R12 and R52). -/
def writeOperand (op : Byte) (v : Nat) (s : State) : Except FaultRecord State :=
  writeReg (regIndex op) v s

end Sys2Proof.Machine
end

