-- ==== Sys2Proof/Machine/Cycle.lean ====
section
/-! DEFINITION. The execution cycle (40_execution_cycle.md): halt test, fetch, decode, operand fetch and
execute, over the opcode map `opc` (parameter OPC) and the dispatch `run`. -/

namespace Sys2Proof.Machine

/-- The `k`-th operand byte of an instruction of operand count `n` at `pc`: a read of `M[pc + k]` when
the instruction has that operand, and no read otherwise (rule R75). The address is never reduced
(rule R39). -/
def fetchOperand (n k : Nat) (s : State) : Except FaultRecord Byte :=
  if k ≤ n then memRead (s.pc + k) s else .ok 0#8

/-- The operand fetch: first operand, then second; the first failing read gives the fault (rule R75). -/
def fetchOperands (m : Mnemonic) (s : State) : Except FaultRecord Instr :=
  match fetchOperand (operandCount m) 1 s with
  | .error f => .error f
  | .ok opa =>
    match fetchOperand (operandCount m) 2 s with
    | .error f => .error f
    | .ok opb => .ok (assemble m opa opb)

/-- Fetch, decode and operand fetch: the instruction at `pc` or the fault to raise (rules R73 to R75). -/
def fetch (opc : Mnemonic → Byte) (s : State) : Except FaultRecord Instr :=
  match memRead s.pc s with
  | .error f => .error f
  | .ok op =>
    match lookup opc op with
    | none => .error (.illegalInstruction op s.pc)
    | some m => fetchOperands m s

/-- The body of a step that is defined: the halt test at its head (rule R72, conflict C8), then fetch
and execute (rule R71). -/
def runningCycle (opc : Mnemonic → Byte) (run : Instr → State → Host.Outcome State Fault Refusal)
    (s : State) : Host.Outcome State Fault Refusal :=
  if s.plen ≤ s.pc then .next (setStatus .halted s)
  else
    match fetch opc s with
    | .error f => .next (raise f s)
    | .ok i => run i s

/-- One step: defined exactly when the status is RUNNING (rule R70). -/
def cycle (opc : Mnemonic → Byte) (run : Instr → State → Host.Outcome State Fault Refusal)
    (s : State) : Host.Outcome State Fault Refusal :=
  match s.status with
  | .idle => .fault .notStarted
  | .running => runningCycle opc run s
  | .halted => .fault .runEnded
  | .faulted => .fault .runEnded

/-- The bytes that an instruction at `pc` can have: those at `pc`, `pc + 1` and `pc + 2` that lie inside
the memory, in address order (rules R34 and R39). -/
def instrBytes (s : State) : List Byte :=
  (((List.range maxWidth).map (s.pc + ·)).filter (· < Config.memSize)).map s.cell

/-- Where `placeInstruction` puts `n` bytes: at `pc` when they fit into the memory there, else at 0. -/
def placeAddress (n : Nat) (s : State) : Nat := if s.pc + n ≤ Config.memSize then s.pc else 0

/-- The machine as a loader leaves it that wrote `bytes` where the next fetch is made, and started the
engine: the cells written, `pc` there, `PLEN` past them, no fault record, status RUNNING (rule R110;
log entry 10). -/
def placeInstruction (bytes : List Byte) (s : State) : State :=
  { s with
    mem := writeCells bytes (placeAddress bytes.length s) s.mem
    pc := placeAddress bytes.length s
    plen := max s.plen (placeAddress bytes.length s + bytes.length)
    status := .running
    fault := none }

end Sys2Proof.Machine
end

