-- ==== Sys2Proof/Machine/Flags.lean ====
section
/-! DEFINITION. There are no flags and no instruction computes one (rule R25), so no flag is defined
here. What an arithmetic instruction computes is its result: the product of rule R102, whose high part
is discarded by the register write and recorded nowhere. -/

namespace Sys2Proof.Machine

/-- The natural-number product of two register values, 0 to 65025 (rules R101 and R102). -/
def product (a b : Byte) : Nat := a.toNat * b.toNat

end Sys2Proof.Machine
end

