-- ==== Sys2Proof/Machine/Alu.lean ====
section
/-! DEFINITION. The ALU dispatcher and MUL (43_alu_mul.md). -/

namespace Sys2Proof.Machine

/-- The handler of MUL: both operands are tested and read, `opa` first (decision D11, log entry 8),
then `x[opa] <- x[opa] * x[opb] mod 256` (rule R101). -/
def mul (ra rb : Byte) (s : State) : Except FaultRecord State :=
  match readOperand ra s with
  | .error f => .error f
  | .ok a =>
    match readOperand rb s with
    | .error f => .error f
    | .ok b => writeOperand ra (product a b) s

/-- The ALU dispatcher (rule R100): MUL is the one operation it knows; any other mnemonic reaching it
raises `UnsupportedOperation` with its opcode byte `op`. -/
def alu (m : Mnemonic) (op opa opb : Byte) (s : State) : Except FaultRecord State :=
  match m with
  | .mul => mul opa opb s
  | .hlt | .ldi | .prn | .push | .pop => .error (.unsupportedOperation op)

/-- MUL: class ALU, so through the ALU dispatcher (rule R76), then the advance by 3 (rule R101). -/
def execMul (ra rb : Byte) (s : State) : Host.Outcome State Fault Refusal :=
  complete (operandCount .mul) s (alu .mul (opcode .mul) ra rb s)

end Sys2Proof.Machine
end

