-- ==== Sys2Proof/Machine/Data.lean ====
section
/-! DEFINITION. Data movement and output: LDI and PRN (42_data_ldi_prn.md). -/

namespace Sys2Proof.Machine

/-- The handler of LDI: `x[opa] <- opb` (rule R95). -/
def ldi (rd imm : Byte) (s : State) : Except FaultRecord State :=
  writeOperand rd (immediate imm) s

/-- LDI: the handler, then the advance by 3 (rule R95). -/
def execLdi (rd imm : Byte) (s : State) : Host.Outcome State Fault Refusal :=
  complete (operandCount .ldi) s (ldi rd imm s)

/-- The handler of PRN: `Emit(x[opa])` (rule R96). -/
def prn (rs : Byte) (s : State) : Except FaultRecord State :=
  match readOperand rs s with
  | .error f => .error f
  | .ok v => .ok (emit v s)

/-- PRN: the handler, then the advance by 2 (rule R96). -/
def execPrn (rs : Byte) (s : State) : Host.Outcome State Fault Refusal :=
  complete (operandCount .prn) s (prn rs s)

end Sys2Proof.Machine
end

