-- ==== Sys2Proof/Machine/Stack.lean ====
section
/-! DEFINITION. The stack instructions PUSH and POP (44_stack_push_pop.md). -/

namespace Sys2Proof.Machine

/-- The handler of PUSH on a stack of capacity `cap`: the register is tested and read, then pushed
(rules R105 and R108; the order is decision D11, log entry 8). -/
def push (cap : Option Nat) (rs : Byte) (s : State) : Except FaultRecord State :=
  match readOperand rs s with
  | .error f => .error f
  | .ok v => pushStack cap v s

/-- PUSH in a build of capacity `cap`: the handler, then the advance by 2 (rules R105 and R108). -/
def execPushWith (cap : Option Nat) (rs : Byte) (s : State) : Host.Outcome State Fault Refusal :=
  complete (operandCount .push) s (push cap rs s)

/-- PUSH with the default capacity, unbounded (rules R105 and R108). -/
def execPush (rs : Byte) (s : State) : Host.Outcome State Fault Refusal :=
  execPushWith Config.stackCapacity rs s

/-- The handler of POP: the empty stack is tested first, then the register index (decision D11, log
entry 8); on a bad index the entry is not consumed, since no write of a raising handler is kept
(rule R106). -/
def pop (rd : Byte) (s : State) : Except FaultRecord State :=
  match popStack s with
  | .error f => .error f
  | .ok (v, t) => writeOperand rd v.toNat t

/-- POP: the handler, then the advance by 2 (rule R106). -/
def execPop (rd : Byte) (s : State) : Host.Outcome State Fault Refusal :=
  complete (operandCount .pop) s (pop rd s)

end Sys2Proof.Machine
end

