-- ==== Sys2Proof/Machine/System.lean ====
section
/-! DEFINITION. The system instruction HLT (41_system_hlt.md). -/

namespace Sys2Proof.Machine

/-- The handler of HLT: `status <- HALTED` (rule R90). -/
def hlt (s : State) : Except FaultRecord State := .ok (setStatus .halted s)

/-- HLT: the handler, then the advance by 1 (rule R90, conflict C1). -/
def execHlt (s : State) : Host.Outcome State Fault Refusal :=
  complete (operandCount .hlt) s (hlt s)

end Sys2Proof.Machine
end

