-- ==== Sys2Proof/Machine/Dispatch.lean ====
section
/-! DEFINITION. The dispatch (rule R76): one arm per instruction. -/

namespace Sys2Proof.Machine

/-- What an instruction does to the state that fetched it: its handler and the advance. That a step is
taken only when the status is RUNNING is `cycle`'s part (rules R70 and R71). -/
def exec (i : Instr) (s : State) : Host.Outcome State Fault Refusal :=
  match i with
  | .hlt => Sys2Proof.Machine.execHlt s
  | .ldi rd imm => Sys2Proof.Machine.execLdi rd imm s
  | .prn rs => Sys2Proof.Machine.execPrn rs s
  | .mul ra rb => Sys2Proof.Machine.execMul ra rb s
  | .push rs => Sys2Proof.Machine.execPush rs s
  | .pop rd => Sys2Proof.Machine.execPop rd s

end Sys2Proof.Machine
end

