-- ==== Sys2Proof/Machine/Step.lean ====
section
/-! DEFINITION. The step of the machine (rule R71), and a state with a given instruction placed for the
next step. -/

namespace Sys2Proof.Machine

/-- One step of the engine with the default opcode values (rules R54 and R71). -/
def step (s : State) : Host.Outcome State Fault Refusal := cycle opcode exec s

/-- The state with the instruction of a table word loaded where the next step fetches it; this stands
for the load of rule R110 (log entry 10). -/
def State.withFetchWord (s : State) (nbits w : Nat) : State :=
  placeInstruction (wordBytes nbits w) s

end Sys2Proof.Machine
end

