-- ==== Sys2Proof/Machine/Build.lean ====
section
/-! DEFINITION. The machine for other values of the parameters OPC and STACK_CAPACITY (rules R2, R53 and
R108): the same cycle and the same meanings, with the build's opcode map and PUSH on its finite stack. -/

namespace Sys2Proof.Machine

/-- The parameters a build fixes beside those of a run (rule R29). OPC must be injective (rule R53). -/
structure Build where
  opc           : Mnemonic → Byte
  stackCapacity : Option Nat

/-- The default build: the opcode values of rule R54 and an unbounded stack. -/
def Build.default : Build := ⟨opcode, Config.stackCapacity⟩

/-- What an instruction does in a build: PUSH alone looks at the capacity (rules R105 and R108). -/
def execFor (b : Build) (i : Instr) (s : State) : Host.Outcome State Fault Refusal :=
  match i with
  | .push rs => execPushWith b.stackCapacity rs s
  | .hlt => execHlt s
  | .ldi rd imm => execLdi rd imm s
  | .prn rs => execPrn rs s
  | .mul ra rb => execMul ra rb s
  | .pop rd => execPop rd s

/-- One step of a build (rule R71). -/
def stepFor (b : Build) (s : State) : Host.Outcome State Fault Refusal := cycle b.opc (execFor b) s

end Sys2Proof.Machine
end

