-- ==== Sys2Proof/Machine/Interfaces.lean ====
section
/-! DEFINITION. The interfaces of the block (45_host_interfaces.md): load and launch, output, trace
snapshot, exit status and readback. None of them is a step; the surroundings have no move during a run
(rule R116). -/

namespace Sys2Proof.Machine

/-! ### Load and launch (rules R110, R111 and R142) -/

/-- What a load leaves: the image written from address 0, `PLEN` its length, `pc` the entry point, the
engine started (rule R110). Registers, stack and output are not its to write. -/
def loaded (image : List Byte) (entry : Nat) (s : State) : State :=
  { s with mem := writeCells image 0 s.mem, plen := image.length, pc := entry, status := .running }

/-- The load interface, used only before the run (rules R110 and R116); it refuses an image over 256
bytes and an entry point over 256 (rule R111, decision D18, log entry 9). -/
def load (image : List Byte) (entry : Nat) (s : State) : Host.Outcome State Fault Refusal :=
  if s.status ≠ .idle then .refused .loadOutsideIdle
  else if Config.memSize < image.length then .refused (.imageTooLong image.length)
  else if Config.memSize < entry then .refused (.entryOutOfRange entry)
  else .next (loaded image entry s)

/-- The machine after reset for given values of `REG_RESET` and `MEM_FILL` (rules R28 and R140). -/
def resetWith (regReset : Vector Byte Config.nreg) (memFill : Nat → Byte) : State :=
  { State.reset with regs := regReset, mem := filledMemory memFill }

/-- The launch state, a function of the parameters (rule R111). -/
def launch (image : List Byte) (entry : Nat) (regReset : Vector Byte Config.nreg)
    (memFill : Nat → Byte) : Host.Outcome State Fault Refusal :=
  load image entry (resetWith regReset memFill)

/-- The launch state with every parameter but the image at its default (rules R2 and R111). -/
def launchDefault (image : List Byte) : Host.Outcome State Fault Refusal :=
  launch image Config.entry Config.regReset Config.memFill

/-! ### The fault record as numbers, and the exit status (rules R115 and R120) -/

/-- The code of a cause (rule R120, decision D10). -/
def FaultRecord.code : FaultRecord → Nat
  | .outOfRange _ _ => 1
  | .illegalInstruction _ _ => 2
  | .unsupportedOperation _ => 3
  | .stackUnderflow _ => 4
  | .stackOverflow _ => 5

/-- The exit status, valid once the run has ended: 0 for HALTED, the cause code for FAULTED
(rule R115, decisions D10 and D23). -/
def exitStatus (s : State) : Option Nat :=
  match s.status with
  | .idle => none
  | .running => none
  | .halted => some 0
  | .faulted => s.fault.map FaultRecord.code

/-! ### Readback (rules R84 and R117) -/

/-- The observable result of a run (rule R84). -/
structure RunResult where
  status : Status
  fault  : Option FaultRecord
  regs   : Vector Byte 8
  pc     : Nat
  stack  : List Byte
  out    : List Byte
deriving DecidableEq, Repr

/-- The result tuple, observable once the run has ended (rule R117). -/
def result (s : State) : Option RunResult :=
  match s.status with
  | .idle => none
  | .running => none
  | .halted => some ⟨s.status, s.fault, s.regs, s.pc, s.stack, s.out⟩
  | .faulted => some ⟨s.status, s.fault, s.regs, s.pc, s.stack, s.out⟩

/-! ### Output rendering and trace (rules R113 and R114), outside the hardware -/

/-- The text the sink prints: each value as its shortest decimal numeral and one line feed (rule R113,
decision D12). -/
def renderOut (out : List Byte) : List Char :=
  out.flatMap fun v => Nat.toDigits 10 v.toNat ++ ['\n']

/-- What the trace interface presents (rule R114). -/
structure Snapshot where
  pc    : Nat
  bytes : List (Option Byte)
  regs  : Vector Byte 8
deriving DecidableEq, Repr

/-- A trace snapshot: `pc`, the bytes at `pc`, `pc + 1` and `pc + 2` with a byte past address 255
presented as absent, and the registers (rule R114, decision D13). It changes nothing. -/
def snapshot (s : State) : Snapshot where
  pc := s.pc
  bytes := (List.range 3).map fun k =>
    if s.pc + k < Config.memSize then some (s.cell (s.pc + k)) else none
  regs := s.regs

end Sys2Proof.Machine
end

