-- ==== Sys2Proof/Safety.lean ====
section
/-! DEFINITION. What claims about runs are stated in: the invariant of the machine, and when a state
stands at an instruction. -/

namespace Sys2Proof.Machine

/-- A fault record that a step of the default build can leave: `UnsupportedOperation` is never raised
(rule R123) and `StackOverflow` exists only with a finite capacity (rule R125). -/
abbrev possibleCause : FaultRecord → Prop
  | .outOfRange _ _ => True
  | .illegalInstruction _ _ => True
  | .unsupportedOperation _ => False
  | .stackUnderflow _ => True
  | .stackOverflow _ => False

/-- The invariant of the machine: the memory is in canonical form, `pc` and `PLEN` are in 0..256
(rules R14, R22 and R81), the fault record has a value exactly when the status is FAULTED (rule R21) and
then a cause that can occur (rule R120), and the stack holds at most one entry per two bytes walked
(rule R108). -/
structure Inv (s : State) : Prop where
  memWf     : Memory.wf s.mem
  pcRange   : s.pc ≤ 256
  plenRange : s.plen ≤ 256
  record    : s.fault.isSome ↔ s.status = .faulted
  cause     : ∀ f, s.fault = some f → possibleCause f
  depth     : 2 * s.sp ≤ s.pc

/-- The state is about to execute the opcode byte of `m`: RUNNING, `pc` inside the image, the image
inside the memory, and the byte at `pc` the opcode of `m` (rules R72 to R74). -/
structure AtOpcode (s : State) (m : Mnemonic) : Prop where
  running : s.status = .running
  inImage : s.pc < s.plen
  fits    : s.plen ≤ 256
  byteAt  : s.cell s.pc = opcode m

end Sys2Proof.Machine
end

