-- ==== Sys2Proof/Certificates/Slice0/Obligations.lean ====
section
/-! DEFINITION. The statements for the provers. Each docstring names the rule of spec/ it formalises, or
the sections it rests on; where a clause rests on a decision of the spec (92_eei_decisions.md D<n>) or
on a choice of the model (a log entry), it says so. `raise f s` is `s` with status FAULTED and fault
record `f` (`RaiseChangesOnlyTheRecord`). -/

open Sys2Proof Sys2Proof.Machine

/-! ### Encoding -/

/-- Decoding gives back every encoded instruction, every operand at every byte value, under every
injective opcode map (30_encoding.md sections 1, 3 and 5: formats, field positions, OPC, decoder). -/
def Obligations.DecodeOfEncode : Prop :=
  ∀ opc : Mnemonic → Byte, Function.Injective opc → ∀ (i : Instr) (rest : List Byte),
    decodeBytes opc (encodeWith opc i ++ rest) = .ok (i, rest)

/-- Bytes that decode are exactly the encoding of what they decode to, under every opcode map: no bit of
any byte is ignored (30_encoding.md section 1, field positions). -/
def Obligations.EncodeOfDecode : Prop :=
  ∀ (opc : Mnemonic → Byte) (bytes rest : List Byte) (i : Instr),
    decodeBytes opc bytes = .ok (i, rest) → bytes = encodeWith opc i ++ rest

/-- The descriptor lookup finds a mnemonic exactly at its own opcode byte, under every injective opcode
map, and finds none exactly at the bytes that are no opcode (30_encoding.md section 5, the decoder as a
function; section 4). -/
def Obligations.LookupFindsOwnOpcode : Prop :=
  (∀ opc : Mnemonic → Byte, Function.Injective opc → ∀ (b : Byte) (m : Mnemonic),
    lookup opc b = some m ↔ b = opc m) ∧
  (∀ (opc : Mnemonic → Byte) (b : Byte), lookup opc b = none ↔ ∀ m, b ≠ opc m)

/-- With the default values, the 250 bytes other than 0x01, 0x45, 0x46, 0x47, 0x82 and 0xA2 are illegal,
0x00 among them, and the default opcode map is injective. The values are the spec's default (decision
D1, log entry 5). -/
def Obligations.DefaultIllegalBytes : Prop :=
  (∀ b : Byte, lookup opcode b = none ↔ b ∉ [0x01#8, 0x45#8, 0x46#8, 0x47#8, 0x82#8, 0xA2#8]) ∧
  lookup opcode 0x00#8 = none ∧ Function.Injective opcode

/-- Rule R57: the decoder's verdict depends on the opcode byte alone; no operand value makes an
instruction illegal at decode, and an accepted opcode gives the same mnemonic whatever the operands. -/
def Obligations.VerdictByOpcodeAlone : Prop :=
  ∀ (opc : Mnemonic → Byte) (b a1 a2 : Byte),
    (lookup opc b = none → decodeBytes opc [b, a1, a2] = .error (.illegalOpcode b)) ∧
    (∀ m, lookup opc b = some m →
      ∃ i rest, decodeBytes opc [b, a1, a2] = .ok (i, rest) ∧ mnemonicOf i = m)

/-- A few words written out from the spec's encodings decode as the spec says (the default opcode values
of decision D1, log entry 5; 95_test_vectors.md). -/
def Obligations.SpecWordsDecode : Prop :=
  decode [0b00000001#8] = .ok (.hlt, []) ∧
  decode [0b10000010#8, 0x00#8, 0x08#8] = .ok (.ldi 0x00#8 0x08#8, []) ∧
  decode [0b01000111#8, 0x00#8] = .ok (.prn 0x00#8, []) ∧
  decode [0b10100010#8, 0x00#8, 0x01#8] = .ok (.mul 0x00#8 0x01#8, []) ∧
  decode [0b01000101#8, 0x02#8] = .ok (.push 0x02#8, []) ∧
  decode [0b01000110#8, 0xFF#8] = .ok (.pop 0xFF#8, [])

/-! ### The step -/

/-- When the engine is RUNNING, `pc` is inside the image and the bytes at `pc` decode to an instruction,
the step is exactly what the instruction does; this machine's step puts nothing around it. Well-formed
or not (40_execution_cycle.md section 1, the order of work within one step). -/
def Obligations.StepRunsDecodedInstruction : Prop :=
  ∀ (s : State) (i : Instr) (rest : List Byte), s.status = .running → s.pc < s.plen →
    decode (instrBytes s) = .ok (i, rest) → step s = exec i s

/-- The same for every build: under any injective opcode map and any stack capacity, a step at the
encoding of an instruction is what the build does with it (30_encoding.md section 3: the semantics do
not depend on the values chosen; decisions D1 and D6). -/
def Obligations.AnyBuildRunsEncodedInstruction : Prop :=
  ∀ (b : Build), Function.Injective b.opc → ∀ (s : State) (i : Instr) (rest : List Byte),
    s.status = .running → s.pc < s.plen → instrBytes s = encodeWith b.opc i ++ rest →
    stepFor b s = execFor b i s

/-- The step of the default build is the machine's step (00_scope.md section 2, the defaults; decisions
D1 and D5, log entries 5 and 6). -/
def Obligations.DefaultBuildIsTheMachine : Prop := ∀ s : State, stepFor Build.default s = step s

/-- A step is defined exactly when the status is RUNNING (40_execution_cycle.md section 1, when a step is
defined). The second clause is the model's choice of how the absence of a step shows on a HALTED or
FAULTED machine: a stop under the name `runEnded` (log entry 7). -/
def Obligations.StepDefinedExactlyWhenRunning : Prop :=
  (∀ s : State, (∃ t, step s = .next t) ↔ s.status = .running) ∧
  (∀ s : State, s.status = .halted ∨ s.status = .faulted → step s = .fault .runEnded)

/-- Between reset and launch there is no step; that the idle phase is a status of its own and that the
model stops there under the name `notStarted` is the model's choice (log entry 2; 10_state.md
section 10). -/
def Obligations.IdleEngineHasNoStep : Prop :=
  (∀ s : State, s.status = .idle → step s = .fault .notStarted) ∧
  step State.reset = .fault .notStarted

/-- Rule R72: with `pc >= PLEN` the step sets the status to HALTED and does nothing else. -/
def Obligations.HaltTestHalts : Prop :=
  ∀ s : State, s.status = .running → s.plen ≤ s.pc → step s = .next { s with status := .halted }

/-- Rules R74 and R122: a byte at `pc` that is none of the six opcodes raises `IllegalInstruction` with
that byte and `pc`, at every address, 254 and 255 included; nothing executes and `pc` stays. In every
build, whatever its opcode map, and so in the machine itself. -/
def Obligations.IllegalOpcodeFaults : Prop :=
  (∀ (b : Build) (s : State), s.status = .running → s.pc < s.plen → s.plen ≤ 256 →
    (∀ m, s.cell s.pc ≠ b.opc m) →
    stepFor b s = .next (raise (.illegalInstruction (s.cell s.pc) s.pc) s)) ∧
  (∀ s : State, s.status = .running → s.pc < s.plen → s.plen ≤ 256 →
    (∀ m, s.cell s.pc ≠ opcode m) →
    step s = .next (raise (.illegalInstruction (s.cell s.pc) s.pc) s))

/-- Rule R75: the operands are the bytes at `pc + 1` and `pc + 2`, as many as the opcode has; where one
lies past the end of the memory the step raises `OutOfRange(memory, 256)`. The bound is the memory size,
not PLEN. -/
def Obligations.OperandFetch : Prop :=
  ∀ (s : State) (m : Mnemonic), AtOpcode s m →
    (s.pc + operandCount m < 256 →
      step s = exec (assemble m (s.cell (s.pc + 1)) (s.cell (s.pc + 2))) s) ∧
    (256 ≤ s.pc + operandCount m → step s = .next (raise (.outOfRange .memory 256) s))

/-- What a step depends on in memory: the opcode byte, and the operand bytes its opcode has; a step that
ends in the halt test depends on none; and it writes none (20_memory.md section 2, who accesses memory
during a run). -/
def Obligations.StepReadsOnlyItsInstruction : Prop :=
  ∀ (s t : State) (m : Memory), step s = .next t →
    (s.pc < s.plen → readCell m s.pc = s.cell s.pc) →
    (s.pc < s.plen → ∀ mn, lookup opcode (s.cell s.pc) = some mn →
      ∀ k, 1 ≤ k → k ≤ operandCount mn → readCell m (s.pc + k) = s.cell (s.pc + k)) →
    step (setMem m s) = .next (setMem m t) ∧ t.mem = s.mem

/-- No step changes the memory or PLEN: every byte reads after it as before (10_state.md section 3, and
section 5 on PLEN; the spec derives it from the six instruction rules). -/
def Obligations.StepKeepsMemoryAndLength : Prop :=
  ∀ s t : State, step s = .next t →
    t.mem = s.mem ∧ (∀ a, t.cell a = s.cell a) ∧ t.plen = s.plen

/-- What a step does never depends on what was emitted before, and it emits at most one value
(45_host_interfaces.md, the output interface; 10_state.md section 7). -/
def Obligations.OutputNeverReadBack : Prop :=
  ∀ (s t : State) (o : List Byte), step s = .next t →
    ∃ e, t.out = s.out ++ e ∧ e.length ≤ 1 ∧
      step { s with out := o } = .next { t with out := o ++ e }

/-! ### The six instructions: where each completes -/

/-- HLT completes in every state (41_system_hlt.md, pseudocode of HLT; conflict C1). -/
def Obligations.HltCompletes : Prop :=
  ∀ s : State, exec .hlt s = .next { s with status := .halted, pc := s.pc + 1 }

/-- LDI of a valid register completes: the register holds the immediate (42_data_ldi_prn.md, pseudocode of
LDI). -/
def Obligations.LdiCompletes : Prop :=
  ∀ (rd imm : Byte) (s : State) (h : rd.toNat < 8),
    exec (.ldi rd imm) s = .next { s with regs := s.regs.set rd.toNat imm h, pc := s.pc + 3 }

/-- PRN of a valid register completes: its value is appended to OUT (42_data_ldi_prn.md, pseudocode of
PRN). -/
def Obligations.PrnCompletes : Prop :=
  ∀ (rs : Byte) (s : State) (h : rs.toNat < 8),
    exec (.prn rs) s = .next { s with out := s.out ++ [s.regs[rs.toNat]], pc := s.pc + 2 }

/-- MUL of two valid registers, equal ones included, completes: the first holds the product of the old
values modulo 256 (43_alu_mul.md, pseudocode of MUL). -/
def Obligations.MulCompletes : Prop :=
  ∀ (ra rb : Byte) (s : State) (ha : ra.toNat < 8) (hb : rb.toNat < 8),
    exec (.mul ra rb) s = .next { s with
      regs := s.regs.set ra.toNat
        (BitVec.ofNat 8 (s.regs[ra.toNat].toNat * s.regs[rb.toNat].toNat % 256)) ha
      pc := s.pc + 3 }

/-- PUSH of a valid register completes with the default unbounded stack (44_stack_push_pop.md, pseudocode
of PUSH; decision D5, log entry 6). -/
def Obligations.PushCompletes : Prop :=
  ∀ (rs : Byte) (s : State) (h : rs.toNat < 8),
    exec (.push rs) s = .next { s with stack := s.stack ++ [s.regs[rs.toNat]], pc := s.pc + 2 }

/-- POP into a valid register completes when the stack is not empty (44_stack_push_pop.md, pseudocode of
POP). -/
def Obligations.PopCompletes : Prop :=
  ∀ (rd v : Byte) (older : List Byte) (s : State) (h : rd.toNat < 8), s.stack = older ++ [v] →
    exec (.pop rd) s = .next { s with
      regs := s.regs.set rd.toNat v h, stack := older, pc := s.pc + 2 }

/-- Every instruction answers a next state in every state, and a well-formed one completes (a POP where
the stack is not empty): it advances by its width and leaves the fault record alone (70_reset_and_hazards.md
section 3, what software must do). That PUSH completes whatever the stack holds rests on the unbounded
default (decision D5, log entry 6): in a finite build it needs room for one more entry. -/
def Obligations.WellFormedInstructionsComplete : Prop :=
  (∀ (i : Instr) (s : State), ∃ t, exec i s = .next t) ∧
  (∀ (i : Instr) (s : State), WellFormed i → (∀ rd, i = .pop rd → s.stack ≠ []) →
    ∃ t, exec i s = .next t ∧ t.pc = s.pc + width i ∧ t.fault = s.fault)

/-! ### The six instructions: the whole rule of each, as a step -/

/-- Rule R90: a step at the opcode of HLT, whatever follows it, halts with `pc` just past it. -/
def Obligations.HltStep : Prop :=
  ∀ s : State, AtOpcode s .hlt → step s = .next { s with status := .halted, pc := s.pc + 1 }

/-- Rule R95: a step at the opcode of LDI. -/
def Obligations.LdiStep : Prop :=
  ∀ s : State, AtOpcode s .ldi →
    (256 ≤ s.pc + 2 → step s = .next (raise (.outOfRange .memory 256) s)) ∧
    (s.pc + 2 < 256 → ∀ rd imm : Byte, s.cell (s.pc + 1) = rd → s.cell (s.pc + 2) = imm →
      (8 ≤ rd.toNat → step s = .next (raise (.outOfRange .register rd.toNat) s)) ∧
      (∀ h : rd.toNat < 8,
        step s = .next { s with regs := s.regs.set rd.toNat imm h, pc := s.pc + 3 }))

/-- Rule R96: a step at the opcode of PRN. -/
def Obligations.PrnStep : Prop :=
  ∀ s : State, AtOpcode s .prn →
    (256 ≤ s.pc + 1 → step s = .next (raise (.outOfRange .memory 256) s)) ∧
    (s.pc + 1 < 256 → ∀ rs : Byte, s.cell (s.pc + 1) = rs →
      (8 ≤ rs.toNat → step s = .next (raise (.outOfRange .register rs.toNat) s)) ∧
      (∀ h : rs.toNat < 8,
        step s = .next { s with out := s.out ++ [s.regs[rs.toNat]], pc := s.pc + 2 }))

/-- Rule R101: a step at the opcode of MUL. Where both indices are bad it says only that one of the two is
reported; which one is decision D11, `OrderOfTests`. -/
def Obligations.MulStep : Prop :=
  ∀ s : State, AtOpcode s .mul →
    (256 ≤ s.pc + 2 → step s = .next (raise (.outOfRange .memory 256) s)) ∧
    (s.pc + 2 < 256 → ∀ ra rb : Byte, s.cell (s.pc + 1) = ra → s.cell (s.pc + 2) = rb →
      (8 ≤ ra.toNat → rb.toNat < 8 → step s = .next (raise (.outOfRange .register ra.toNat) s)) ∧
      (ra.toNat < 8 → 8 ≤ rb.toNat → step s = .next (raise (.outOfRange .register rb.toNat) s)) ∧
      (8 ≤ ra.toNat → 8 ≤ rb.toNat → ∃ r : Byte, (r = ra ∨ r = rb) ∧
        step s = .next (raise (.outOfRange .register r.toNat) s)) ∧
      (∀ (ha : ra.toNat < 8) (hb : rb.toNat < 8), step s = .next { s with
        regs := s.regs.set ra.toNat
          (BitVec.ofNat 8 (s.regs[ra.toNat].toNat * s.regs[rb.toNat].toNat % 256)) ha
        pc := s.pc + 3 }))

/-- A step at the opcode of PUSH, on a stack of any capacity (`none` is unbounded): 44_stack_push_pop.md,
pseudocode of PUSH. The `StackOverflow` clauses rest on decision D6, the spec's own choice for a finite
build (log entry 6), and the record's address on 60_exceptions.md section 1. Where the index is bad and
a finite stack is full, which fault is reported is decision D11 (log entry 8), `OrderOfTests`. -/
def Obligations.PushStep : Prop :=
  ∀ (cap : Option Nat) (s : State), AtOpcode s .push →
    (256 ≤ s.pc + 1 → stepFor ⟨opcode, cap⟩ s = .next (raise (.outOfRange .memory 256) s)) ∧
    (s.pc + 1 < 256 → ∀ rs : Byte, s.cell (s.pc + 1) = rs →
      (8 ≤ rs.toNat → cap ≠ some s.sp →
        stepFor ⟨opcode, cap⟩ s = .next (raise (.outOfRange .register rs.toNat) s)) ∧
      (rs.toNat < 8 → cap = some s.sp →
        stepFor ⟨opcode, cap⟩ s = .next (raise (.stackOverflow s.pc) s)) ∧
      (8 ≤ rs.toNat → cap = some s.sp → ∃ f,
        (f = .stackOverflow s.pc ∨ f = .outOfRange .register rs.toNat) ∧
        stepFor ⟨opcode, cap⟩ s = .next (raise f s)) ∧
      (∀ h : rs.toNat < 8, cap ≠ some s.sp → stepFor ⟨opcode, cap⟩ s =
        .next { s with stack := s.stack ++ [s.regs[rs.toNat]], pc := s.pc + 2 }))

/-- Rule R106: a step at the opcode of POP. Where the stack is empty and the index is bad it says only that
one of the two faults is reported; which one is decision D11, `OrderOfTests`. -/
def Obligations.PopStep : Prop :=
  ∀ s : State, AtOpcode s .pop →
    (256 ≤ s.pc + 1 → step s = .next (raise (.outOfRange .memory 256) s)) ∧
    (s.pc + 1 < 256 → ∀ rd : Byte, s.cell (s.pc + 1) = rd →
      (s.stack = [] → rd.toNat < 8 → step s = .next (raise (.stackUnderflow s.pc) s)) ∧
      (s.stack ≠ [] → 8 ≤ rd.toNat → step s = .next (raise (.outOfRange .register rd.toNat) s)) ∧
      (s.stack = [] → 8 ≤ rd.toNat → ∃ f,
        (f = .stackUnderflow s.pc ∨ f = .outOfRange .register rd.toNat) ∧
        step s = .next (raise f s)) ∧
      (∀ (h : rd.toNat < 8) (older : List Byte) (v : Byte), s.stack = older ++ [v] →
        step s = .next { s with
          regs := s.regs.set rd.toNat v h, stack := older, pc := s.pc + 2 }))

/-! ### Where the instructions fault -/

/-- A register operand of 8 or more is never masked: LDI, PRN and PUSH raise `OutOfRange(register, index)`
on it, MUL on its second operand when the first is valid, POP when the stack is not empty
(30_encoding.md section 2; 60_exceptions.md section 1). -/
def Obligations.BadRegisterIndexFaults : Prop :=
  ∀ (r : Byte), 8 ≤ r.toNat →
    (∀ imm s, exec (.ldi r imm) s = .next (raise (.outOfRange .register r.toNat) s)) ∧
    (∀ s, exec (.prn r) s = .next (raise (.outOfRange .register r.toNat) s)) ∧
    (∀ s, exec (.push r) s = .next (raise (.outOfRange .register r.toNat) s)) ∧
    (∀ (ra : Byte) s, ra.toNat < 8 →
      exec (.mul ra r) s = .next (raise (.outOfRange .register r.toNat) s)) ∧
    (∀ s, s.stack ≠ [] → exec (.pop r) s = .next (raise (.outOfRange .register r.toNat) s))

/-- Decision D11 of the spec (log entry 8): MUL tests its first operand first, POP the empty stack before
the index, PUSH the index before a full stack (60_exceptions.md section 2, order of tests). -/
def Obligations.OrderOfTests : Prop :=
  (∀ (ra rb : Byte) (s : State), 8 ≤ ra.toNat →
    exec (.mul ra rb) s = .next (raise (.outOfRange .register ra.toNat) s)) ∧
  (∀ (rd : Byte) (s : State), s.stack = [] →
    exec (.pop rd) s = .next (raise (.stackUnderflow s.pc) s)) ∧
  (∀ (cap : Option Nat) (rs : Byte) (s : State), 8 ≤ rs.toNat →
    execPushWith cap rs s = .next (raise (.outOfRange .register rs.toNat) s))

/-- The ALU dispatcher runs MUL and raises `UnsupportedOperation` with the opcode byte for any other
mnemonic (43_alu_mul.md, the ALU dispatcher; decision D21). -/
def Obligations.AluKnowsOnlyMul : Prop :=
  (∀ (op opa opb : Byte) (s : State), alu .mul op opa opb s = mul opa opb s) ∧
  (∀ (m : Mnemonic) (op opa opb : Byte) (s : State), m ≠ .mul →
    alu m op opa opb s = .error (.unsupportedOperation op))

/-- Fault entry sets the status and the fault record and nothing else (60_exceptions.md section 2, fault
entry; decision D9, log entry 7). -/
def Obligations.RaiseChangesOnlyTheRecord : Prop :=
  ∀ (f : FaultRecord) (s : State),
    (raise f s).status = .faulted ∧ (raise f s).fault = some f ∧
    (raise f s).regs = s.regs ∧ (raise f s).pc = s.pc ∧ (∀ a, (raise f s).cell a = s.cell a) ∧
    (raise f s).stack = s.stack ∧ (raise f s).sp = s.sp ∧ (raise f s).plen = s.plen ∧
    (raise f s).out = s.out

/-- Faults are precise: a step that ends FAULTED has changed nothing but the status and the fault record
(60_exceptions.md section 2, fault entry and precision; decision D9, log entry 7). -/
def Obligations.FaultsArePrecise : Prop :=
  ∀ s t : State, step s = .next t → t.status = .faulted →
    ∃ f, t = { s with status := .faulted, fault := some f }

/-- Which step leaves which cause: each fault a step raises has the condition and the info that
60_exceptions.md section 1 gives its cause; `UnsupportedOperation` never occurs and, with the default
unbounded stack, neither does `StackOverflow` (decisions D6 and D21). -/
def Obligations.CauseOfEachFault : Prop :=
  ∀ (s t : State) (f : FaultRecord), s.plen ≤ 256 → step s = .next t → t.status = .faulted →
    t.fault = some f →
    match f with
    | .outOfRange .memory a =>
      a = 256 ∧ ∃ m, s.cell s.pc = opcode m ∧ s.pc < 256 ∧ 256 ≤ s.pc + operandCount m
    | .outOfRange .register q =>
      8 ≤ q ∧ ∃ i rest r, decode (instrBytes s) = .ok (i, rest) ∧ r ∈ regOperands i ∧ r.toNat = q
    | .illegalInstruction b a => b = s.cell s.pc ∧ a = s.pc ∧ ∀ m, b ≠ opcode m
    | .unsupportedOperation _ => False
    | .stackUnderflow a => a = s.pc ∧ s.stack = [] ∧ s.cell s.pc = opcode .pop
    | .stackOverflow _ => False

/-! ### Frames -/

/-- An instruction is all or nothing: it raises and nothing but the status and the record changes, or it
completes, `pc` advances by its width, and memory, PLEN and the fault record are unchanged; only HLT
changes the status (40_execution_cycle.md section 1, execute; 60_exceptions.md section 2). -/
def Obligations.ExecAllOrNothing : Prop :=
  ∀ (i : Instr) (s t : State), exec i s = .next t →
    (∃ f, t = raise f s) ∨
    (t.pc = s.pc + width i ∧ t.fault = s.fault ∧ t.mem = s.mem ∧ t.plen = s.plen ∧
      ((i ≠ .hlt ∧ t.status = s.status) ∨ (i = .hlt ∧ t.status = .halted)))

/-- Rule R78: the advance is `1 + operand_count`, the same for all six instructions, made only by an
instruction that completed; on a fault there is no advance. -/
def Obligations.AdvanceByWidth : Prop :=
  ∀ (i : Instr) (s t : State), s.status = .running → exec i s = .next t →
    (t.status ≠ .faulted → t.pc = s.pc + 1 + operandCount (mnemonicOf i)) ∧
    (t.status = .faulted → t.pc = s.pc)

/-- Frame of LDI and MUL: every register but the destination, the stack, the output, PLEN and every byte of
memory are unchanged; status and fault record change only by a fault, which leaves every register and
`pc` (42_data_ldi_prn.md and 43_alu_mul.md, state written). -/
def Obligations.LdiMulFrame : Prop :=
  ∀ (i : Instr) (rd : Byte) (s t : State), (∃ x, i = .ldi rd x) ∨ (∃ x, i = .mul rd x) →
    exec i s = .next t →
    (∀ (q : Nat) (h : q < 8), q ≠ rd.toNat → t.regs[q] = s.regs[q]) ∧
    t.stack = s.stack ∧ t.out = s.out ∧ t.plen = s.plen ∧ (∀ a, t.cell a = s.cell a) ∧
    ((t.status = s.status ∧ t.fault = s.fault) ∨
      (t.status = .faulted ∧ t.regs = s.regs ∧ t.pc = s.pc))

/-- Frame of HLT and PRN: every register, the stack, PLEN and every byte of memory are unchanged; HLT
leaves output and fault record alone; PRN appends at most one value and changes status and record only
by a fault (41_system_hlt.md and 42_data_ldi_prn.md, state written). -/
def Obligations.HltPrnFrame : Prop :=
  ∀ (i : Instr) (s t : State), i = .hlt ∨ (∃ x, i = .prn x) → exec i s = .next t →
    t.regs = s.regs ∧ t.stack = s.stack ∧ t.plen = s.plen ∧ (∀ a, t.cell a = s.cell a) ∧
    (i = .hlt → t.out = s.out ∧ t.fault = s.fault) ∧
    (i ≠ .hlt → (t.status = s.status ∧ t.fault = s.fault ∧ ∃ v, t.out = s.out ++ [v]) ∨
      (t.status = .faulted ∧ t.out = s.out ∧ t.pc = s.pc))

/-- Frame of PUSH and POP: PUSH changes no register, POP none but its destination, register 7 included; no
byte of memory changes (the stack is not in memory), nor the output nor PLEN; entries below the one
pushed or popped are unchanged (44_stack_push_pop.md, state written). -/
def Obligations.PushPopFrame : Prop :=
  (∀ (rs : Byte) (s t : State), exec (.push rs) s = .next t →
    t.regs = s.regs ∧ t.out = s.out ∧ t.plen = s.plen ∧ (∀ a, t.cell a = s.cell a) ∧
    ((t.status = s.status ∧ t.fault = s.fault ∧ ∃ v, t.stack = s.stack ++ [v]) ∨
      (t.status = .faulted ∧ t.stack = s.stack ∧ t.pc = s.pc))) ∧
  (∀ (rd : Byte) (s t : State), exec (.pop rd) s = .next t →
    (∀ (q : Nat) (h : q < 8), q ≠ rd.toNat → t.regs[q] = s.regs[q]) ∧
    t.out = s.out ∧ t.plen = s.plen ∧ (∀ a, t.cell a = s.cell a) ∧
    ((t.status = s.status ∧ t.fault = s.fault ∧ ∃ v, s.stack = t.stack ++ [v]) ∨
      (t.status = .faulted ∧ t.regs = s.regs ∧ t.stack = s.stack ∧ t.pc = s.pc)))

/-- The stack pointer changes only by a completed PUSH, to `SP + 1`, and a completed POP, to `SP - 1`; every
other step leaves the whole stack, and it is 0 at reset (44_stack_push_pop.md, stack-pointer control). -/
def Obligations.OnlyPushAndPopMoveSp : Prop :=
  State.reset.sp = 0 ∧
  ∀ s t : State, step s = .next t →
    t.stack = s.stack ∨
    (∃ r rest, decode (instrBytes s) = .ok (.push r, rest) ∧ t.sp = s.sp + 1 ∧ t.pc = s.pc + 2 ∧
      t.stack.dropLast = s.stack) ∨
    (∃ r rest, decode (instrBytes s) = .ok (.pop r, rest) ∧ t.sp + 1 = s.sp ∧ t.pc = s.pc + 2 ∧
      t.stack = s.stack.dropLast)

/-! ### Registers, memory cells and the stack -/

/-- Rules R11 and R12: a register read gives the register or `OutOfRange(register, i)`; a register write
stores `v mod 256` in it and changes nothing else, or faults. -/
def Obligations.RegisterReadAndWrite : Prop :=
  ∀ (i v : Nat) (s : State),
    (∀ h : i < 8, readReg i s = .ok s.regs[i] ∧
      writeReg i v s = .ok { s with regs := s.regs.set i (BitVec.ofNat 8 (v % 256)) h }) ∧
    (8 ≤ i → readReg i s = .error (.outOfRange .register i) ∧
      writeReg i v s = .error (.outOfRange .register i))

/-- For every valid register and every value 0..255, a read after the write gives the value, and every other
register reads as before (10_state.md section 1, write-then-read law; the spec derives the clause on
the other registers from its rule of the register write). -/
def Obligations.RegisterWriteThenRead : Prop :=
  ∀ (r v : Nat) (s : State), r < 8 → v < 256 →
    ∃ t, writeReg r v s = .ok t ∧ readReg r t = .ok (BitVec.ofNat 8 v) ∧
      ∀ q, q ≠ r → readReg q t = readReg q s

/-- Rule R31: a memory read gives the cell at an address 0..255 and `OutOfRange(memory, a)` at any other. -/
def Obligations.MemoryRead : Prop :=
  ∀ (a : Nat) (s : State),
    (a < 256 → memRead a s = .ok (s.cell a)) ∧
    (256 ≤ a → memRead a s = .error (.outOfRange .memory a))

/-- A memory write at an address 0..255 stores the byte there, leaves every other cell and every other
field, and keeps the canonical form; at any other address it faults (20_memory.md section 2; the
canonical form is the model's, log entry 4). -/
def Obligations.MemoryWriteThenRead : Prop :=
  ∀ (a : Nat) (v : Byte) (s : State),
    (a < 256 → Memory.wf s.mem → ∃ m, memWrite a v s = .ok { s with mem := m } ∧ Memory.wf m ∧
      readCell m a = v ∧ ∀ b, b ≠ a → readCell m b = s.cell b) ∧
    (256 ≤ a → memWrite a v s = .error (.outOfRange .memory a))

/-- PUSH then POP on the same register round-trips when the register is set to 0 between them, and the stack
is then as it was (44_stack_push_pop.md, round-trip law; the clause on the stack is in the part the spec
derives). That the PUSH completes whatever the stack holds rests on the unbounded default (decision D5,
log entry 6). -/
def Obligations.PushPopRoundTrip : Prop :=
  ∀ (r : Byte) (v : Nat) (s s1 : State), r.toNat < 8 → v < 256 → writeReg r.toNat v s = .ok s1 →
    ∃ s2 s3 s4, exec (.push r) s1 = .next s2 ∧ writeReg r.toNat 0 s2 = .ok s3 ∧
      exec (.pop r) s3 = .next s4 ∧ readReg r.toNat s4 = .ok (BitVec.ofNat 8 v) ∧
      s4.stack = s.stack

/-- PUSH Rr followed by POP Rs copies the old value of the first register to the second, leaves the stack
as it was and changes no other register (44_stack_push_pop.md, round-trip law; the spec derives it). That
the PUSH completes whatever the stack holds rests on the unbounded default (decision D5, log entry 6). -/
def Obligations.PushPopCopies : Prop :=
  ∀ (r q : Byte) (s : State) (hr : r.toNat < 8) (hq : q.toNat < 8),
    ∃ t, exec (.push r) s = .next t ∧
      exec (.pop q) t = .next { s with
        regs := s.regs.set q.toNat s.regs[r.toNat] hq, pc := s.pc + 4 }

/-! ### Load, launch, reset, readback -/

/-- Rule R110: the load writes the image from address 0, sets PLEN and `pc` and starts the engine; every cell
past the image, the registers, the stack and OUT are as before. The premise on the memory, its canonical
form, is the model's (log entry 4; `StepKeepsInvariant`). -/
def Obligations.LoadWritesTheImage : Prop :=
  ∀ (image : List Byte) (entry : Nat) (s : State), s.status = .idle → image.length ≤ 256 →
    entry ≤ 256 → Memory.wf s.mem →
    ∃ t, load image entry s = .next t ∧
      (∀ (a : Nat) (h : a < image.length), t.cell a = image[a]) ∧
      (∀ a, image.length ≤ a → t.cell a = s.cell a) ∧
      t.plen = image.length ∧ t.pc = entry ∧ t.status = .running ∧
      t.regs = s.regs ∧ t.stack = s.stack ∧ t.out = s.out ∧ t.fault = s.fault

/-- A load outside the idle phase, an image of more than 256 bytes and an entry point above 256 are
refused, in this order (45_host_interfaces.md, the load interface and the launch state; decisions D18
and D22; the names and their order are the model's, log entry 9). -/
def Obligations.LoadRefuses : Prop :=
  ∀ (image : List Byte) (entry : Nat) (s : State),
    (s.status ≠ .idle → load image entry s = .refused .loadOutsideIdle) ∧
    (s.status = .idle → 256 < image.length →
      load image entry s = .refused (.imageTooLong image.length)) ∧
    (s.status = .idle → image.length ≤ 256 → 256 < entry →
      load image entry s = .refused (.entryOutOfRange entry))

/-- The launch state as a function of the parameters IMAGE, ENTRY, REG_RESET and MEM_FILL
(45_host_interfaces.md, the launch state; the spec derives it, and its empty stack is decision D4). -/
def Obligations.LaunchState : Prop :=
  ∀ (image : List Byte) (entry : Nat) (regReset : Vector Byte 8) (fill : Nat → Byte),
    image.length ≤ 256 → entry ≤ 256 →
    ∃ t, launch image entry regReset fill = .next t ∧
      t.regs = regReset ∧
      (∀ (a : Nat) (h : a < image.length), t.cell a = image[a]) ∧
      (∀ a, image.length ≤ a → a < 256 → t.cell a = fill a) ∧
      t.pc = entry ∧ t.plen = image.length ∧ t.stack = [] ∧ t.sp = 0 ∧ t.out = [] ∧
      t.status = .running ∧ t.fault = none

/-- The state after reset: the registers and the memory are 0, the spec's own defaults of REG_RESET and
MEM_FILL (decisions D2 and D3, log entries 3 and 4); `pc`, PLEN and SP are 0, the stack and OUT empty,
no fault record (decisions D4, D7, D9 and D12); not RUNNING, which the model writes `idle` (log entry 2).
10_state.md section 10, 70_reset_and_hazards.md section 1. -/
def Obligations.ResetState : Prop :=
  (∀ (i : Nat) (h : i < 8), State.reset.regs[i] = 0#8) ∧
  (∀ a, State.reset.cell a = 0#8) ∧
  State.reset.pc = 0 ∧ State.reset.stack = [] ∧ State.reset.sp = 0 ∧
  State.reset.status = .idle ∧ State.reset.fault = none ∧ State.reset.plen = 0 ∧
  State.reset.out = []

/-- The exit status: 0 after HALTED, the code of the recorded cause, which is not 0, after FAULTED, and none
while the run has not ended (45_host_interfaces.md, exit-status interface; 60_exceptions.md section 1;
the numbers are decision D10, and that every cause is non-zero D23). -/
def Obligations.ExitStatusOfARun : Prop :=
  (∀ s : State, s.status = .halted → exitStatus s = some 0) ∧
  (∀ (s : State) (f : FaultRecord), s.status = .faulted → s.fault = some f →
    exitStatus s = some f.code ∧ f.code ≠ 0) ∧
  (∀ s : State, s.status = .idle ∨ s.status = .running → exitStatus s = none) ∧
  (∀ k a, (FaultRecord.outOfRange k a).code = 1) ∧
  (∀ b a, (FaultRecord.illegalInstruction b a).code = 2) ∧
  (∀ b, (FaultRecord.unsupportedOperation b).code = 3) ∧
  (∀ a, (FaultRecord.stackUnderflow a).code = 4) ∧ (∀ a, (FaultRecord.stackOverflow a).code = 5)

/-- A trace snapshot presents `pc`, the registers, and the bytes at `pc`, `pc + 1` and `pc + 2`, a byte past
address 255 as absent (45_host_interfaces.md, the trace interface; decision D13). -/
def Obligations.SnapshotPresentsAbsentBytes : Prop :=
  ∀ s : State, (snapshot s).pc = s.pc ∧ (snapshot s).regs = s.regs ∧
    (snapshot s).bytes.length = 3 ∧
    ∀ k, k < 3 →
      (s.pc + k < 256 → (snapshot s).bytes[k]? = some (some (s.cell (s.pc + k)))) ∧
      (256 ≤ s.pc + k → (snapshot s).bytes[k]? = some none)

/-! ### The machine as a whole -/

/-- The ways a run ends: a step that leaves RUNNING for HALTED is the halt test, which leaves `pc`, or HLT,
which leaves `pc` just past it; one that leaves it for FAULTED leaves `pc` at the opcode; and a machine
whose step is any other stays RUNNING (40_execution_cycle.md section 2, the ways a run ends; decision
D9 for the last `pc` of a faulted run). -/
def Obligations.WaysARunEnds : Prop :=
  ∀ s t : State, s.plen ≤ 256 → step s = .next t →
    (t.status = .halted ↔ s.plen ≤ s.pc ∨ s.cell s.pc = opcode .hlt) ∧
    (t.status = .halted → t.pc = if s.plen ≤ s.pc then s.pc else s.pc + 1) ∧
    (t.status = .faulted → t.pc = s.pc ∧ t.fault ≠ none) ∧
    t.status ≠ .idle

/-- The invariant holds at reset. Its canonical form of memory is the model's (log entry 4). -/
def Obligations.ResetMeetsInvariant : Prop := Inv State.reset

/-- The invariant holds in every launch state, whatever the image, the entry point, the register values and
the fill (45_host_interfaces.md, the launch state, which the spec derives). Its canonical form of memory
is the model's (log entry 4). -/
def Obligations.LaunchMeetsInvariant : Prop :=
  ∀ (image : List Byte) (entry : Nat) (regReset : Vector Byte 8) (fill : Nat → Byte) (t : State),
    launch image entry regReset fill = .next t → Inv t

/-- Every step keeps the invariant. From the spec: `pc` stays in 0..256 (40_execution_cycle.md section 2,
the `pc` invariant), the fault record is present exactly when FAULTED (10_state.md section 5, decision
D9, log entry 7), and the stack holds at most one entry per two bytes walked (44_stack_push_pop.md, the
depth bound, which the spec derives). That the memory stays canonical is the model's own (log entry 4).
That no step leaves `StackOverflow` rests on the unbounded default of decisions D5 and D6 (log entry 6),
and that none leaves `UnsupportedOperation` on decision D21. -/
def Obligations.StepKeepsInvariant : Prop :=
  ∀ s t : State, Inv s → step s = .next t → Inv t

/-- Every run ends: from every running state that meets the invariant, the engine stops running within
`PLEN - pc` instruction steps and one more, and within 129 steps in all; it then stands HALTED or
FAULTED (40_execution_cycle.md section 2, every run ends; 70_reset_and_hazards.md section 4; the spec
derives it). The invariant's canonical form of memory is the model's (log entry 4). -/
def Obligations.EveryRunEnds : Prop :=
  ∀ s : State, Inv s → s.status = .running →
    ∃ (k : Nat) (t : State), k ≤ s.plen - s.pc + 1 ∧ k ≤ 129 ∧
      Host.Core.run Sys2Proof.core k s = .next t ∧ (t.status = .halted ∨ t.status = .faulted)

/-- A build of capacity 128 or more behaves exactly as the unbounded stack: from every state that meets the
invariant, after any number of steps the two machines give the same outcome (44_stack_push_pop.md,
finite stack capacity; the spec derives it; decisions D5 and D6, log entry 6). The invariant's canonical
form of memory is the model's (log entry 4). -/
def Obligations.LargeStackIsUnbounded : Prop :=
  ∀ (C : Nat), 128 ≤ C → ∀ (s : State), Inv s → ∀ k : Nat,
    Host.Core.run ⟨State, Fault, Refusal, stepFor ⟨opcode, some C⟩, State.reset⟩ k s =
    Host.Core.run ⟨State, Fault, Refusal, step, State.reset⟩ k s
end

