-- ==== Sys2Proof/Laws/State.lean ====
section
/-! SUPPORT. One lemma per field per update of the state, true by unfolding, so that no later proof
unfolds a record update; then the views `sp` and `cell`. -/

namespace Sys2Proof.Machine

@[simp] theorem setReg_regs (i : Nat) (h : i < Config.nreg) (v : Byte) (s : State) :
    (setReg i h v s).regs = s.regs.set i v h := rfl
@[simp] theorem setReg_pc (i : Nat) (h : i < Config.nreg) (v : Byte) (s : State) :
    (setReg i h v s).pc = s.pc := rfl
@[simp] theorem setReg_mem (i : Nat) (h : i < Config.nreg) (v : Byte) (s : State) :
    (setReg i h v s).mem = s.mem := rfl
@[simp] theorem setReg_stack (i : Nat) (h : i < Config.nreg) (v : Byte) (s : State) :
    (setReg i h v s).stack = s.stack := rfl
@[simp] theorem setReg_status (i : Nat) (h : i < Config.nreg) (v : Byte) (s : State) :
    (setReg i h v s).status = s.status := rfl
@[simp] theorem setReg_fault (i : Nat) (h : i < Config.nreg) (v : Byte) (s : State) :
    (setReg i h v s).fault = s.fault := rfl
@[simp] theorem setReg_plen (i : Nat) (h : i < Config.nreg) (v : Byte) (s : State) :
    (setReg i h v s).plen = s.plen := rfl
@[simp] theorem setReg_out (i : Nat) (h : i < Config.nreg) (v : Byte) (s : State) :
    (setReg i h v s).out = s.out := rfl
@[simp] theorem setReg_sp (i : Nat) (h : i < Config.nreg) (v : Byte) (s : State) :
    (setReg i h v s).sp = s.sp := rfl
@[simp] theorem setReg_cell (i : Nat) (h : i < Config.nreg) (v : Byte) (s : State) (a : Nat) :
    (setReg i h v s).cell a = s.cell a := rfl

@[simp] theorem setPc_regs (t : Nat) (s : State) :
    (setPc t s).regs = s.regs := rfl
@[simp] theorem setPc_pc (t : Nat) (s : State) :
    (setPc t s).pc = t := rfl
@[simp] theorem setPc_mem (t : Nat) (s : State) :
    (setPc t s).mem = s.mem := rfl
@[simp] theorem setPc_stack (t : Nat) (s : State) :
    (setPc t s).stack = s.stack := rfl
@[simp] theorem setPc_status (t : Nat) (s : State) :
    (setPc t s).status = s.status := rfl
@[simp] theorem setPc_fault (t : Nat) (s : State) :
    (setPc t s).fault = s.fault := rfl
@[simp] theorem setPc_plen (t : Nat) (s : State) :
    (setPc t s).plen = s.plen := rfl
@[simp] theorem setPc_out (t : Nat) (s : State) :
    (setPc t s).out = s.out := rfl
@[simp] theorem setPc_sp (t : Nat) (s : State) :
    (setPc t s).sp = s.sp := rfl
@[simp] theorem setPc_cell (t : Nat) (s : State) (a : Nat) :
    (setPc t s).cell a = s.cell a := rfl

@[simp] theorem setMem_regs (m : Memory) (s : State) :
    (setMem m s).regs = s.regs := rfl
@[simp] theorem setMem_pc (m : Memory) (s : State) :
    (setMem m s).pc = s.pc := rfl
@[simp] theorem setMem_mem (m : Memory) (s : State) :
    (setMem m s).mem = m := rfl
@[simp] theorem setMem_stack (m : Memory) (s : State) :
    (setMem m s).stack = s.stack := rfl
@[simp] theorem setMem_status (m : Memory) (s : State) :
    (setMem m s).status = s.status := rfl
@[simp] theorem setMem_fault (m : Memory) (s : State) :
    (setMem m s).fault = s.fault := rfl
@[simp] theorem setMem_plen (m : Memory) (s : State) :
    (setMem m s).plen = s.plen := rfl
@[simp] theorem setMem_out (m : Memory) (s : State) :
    (setMem m s).out = s.out := rfl
@[simp] theorem setMem_sp (m : Memory) (s : State) :
    (setMem m s).sp = s.sp := rfl

@[simp] theorem setStack_regs (k : List Byte) (s : State) :
    (setStack k s).regs = s.regs := rfl
@[simp] theorem setStack_pc (k : List Byte) (s : State) :
    (setStack k s).pc = s.pc := rfl
@[simp] theorem setStack_mem (k : List Byte) (s : State) :
    (setStack k s).mem = s.mem := rfl
@[simp] theorem setStack_stack (k : List Byte) (s : State) :
    (setStack k s).stack = k := rfl
@[simp] theorem setStack_status (k : List Byte) (s : State) :
    (setStack k s).status = s.status := rfl
@[simp] theorem setStack_fault (k : List Byte) (s : State) :
    (setStack k s).fault = s.fault := rfl
@[simp] theorem setStack_plen (k : List Byte) (s : State) :
    (setStack k s).plen = s.plen := rfl
@[simp] theorem setStack_out (k : List Byte) (s : State) :
    (setStack k s).out = s.out := rfl
@[simp] theorem setStack_cell (k : List Byte) (s : State) (a : Nat) :
    (setStack k s).cell a = s.cell a := rfl

@[simp] theorem setStatus_regs (v : Status) (s : State) :
    (setStatus v s).regs = s.regs := rfl
@[simp] theorem setStatus_pc (v : Status) (s : State) :
    (setStatus v s).pc = s.pc := rfl
@[simp] theorem setStatus_mem (v : Status) (s : State) :
    (setStatus v s).mem = s.mem := rfl
@[simp] theorem setStatus_stack (v : Status) (s : State) :
    (setStatus v s).stack = s.stack := rfl
@[simp] theorem setStatus_status (v : Status) (s : State) :
    (setStatus v s).status = v := rfl
@[simp] theorem setStatus_fault (v : Status) (s : State) :
    (setStatus v s).fault = s.fault := rfl
@[simp] theorem setStatus_plen (v : Status) (s : State) :
    (setStatus v s).plen = s.plen := rfl
@[simp] theorem setStatus_out (v : Status) (s : State) :
    (setStatus v s).out = s.out := rfl
@[simp] theorem setStatus_sp (v : Status) (s : State) :
    (setStatus v s).sp = s.sp := rfl
@[simp] theorem setStatus_cell (v : Status) (s : State) (a : Nat) :
    (setStatus v s).cell a = s.cell a := rfl

@[simp] theorem emit_regs (v : Byte) (s : State) :
    (emit v s).regs = s.regs := rfl
@[simp] theorem emit_pc (v : Byte) (s : State) :
    (emit v s).pc = s.pc := rfl
@[simp] theorem emit_mem (v : Byte) (s : State) :
    (emit v s).mem = s.mem := rfl
@[simp] theorem emit_stack (v : Byte) (s : State) :
    (emit v s).stack = s.stack := rfl
@[simp] theorem emit_status (v : Byte) (s : State) :
    (emit v s).status = s.status := rfl
@[simp] theorem emit_fault (v : Byte) (s : State) :
    (emit v s).fault = s.fault := rfl
@[simp] theorem emit_plen (v : Byte) (s : State) :
    (emit v s).plen = s.plen := rfl
@[simp] theorem emit_out (v : Byte) (s : State) :
    (emit v s).out = s.out ++ [v] := rfl
@[simp] theorem emit_sp (v : Byte) (s : State) :
    (emit v s).sp = s.sp := rfl
@[simp] theorem emit_cell (v : Byte) (s : State) (a : Nat) :
    (emit v s).cell a = s.cell a := rfl

@[simp] theorem raise_regs (f : FaultRecord) (s : State) :
    (raise f s).regs = s.regs := rfl
@[simp] theorem raise_pc (f : FaultRecord) (s : State) :
    (raise f s).pc = s.pc := rfl
@[simp] theorem raise_mem (f : FaultRecord) (s : State) :
    (raise f s).mem = s.mem := rfl
@[simp] theorem raise_stack (f : FaultRecord) (s : State) :
    (raise f s).stack = s.stack := rfl
@[simp] theorem raise_status (f : FaultRecord) (s : State) :
    (raise f s).status = .faulted := rfl
@[simp] theorem raise_fault (f : FaultRecord) (s : State) :
    (raise f s).fault = some f := rfl
@[simp] theorem raise_plen (f : FaultRecord) (s : State) :
    (raise f s).plen = s.plen := rfl
@[simp] theorem raise_out (f : FaultRecord) (s : State) :
    (raise f s).out = s.out := rfl
@[simp] theorem raise_sp (f : FaultRecord) (s : State) :
    (raise f s).sp = s.sp := rfl
@[simp] theorem raise_cell (f : FaultRecord) (s : State) (a : Nat) :
    (raise f s).cell a = s.cell a := rfl

@[simp] theorem loaded_regs (image : List Byte) (entry : Nat) (s : State) :
    (loaded image entry s).regs = s.regs := rfl
@[simp] theorem loaded_pc (image : List Byte) (entry : Nat) (s : State) :
    (loaded image entry s).pc = entry := rfl
@[simp] theorem loaded_mem (image : List Byte) (entry : Nat) (s : State) :
    (loaded image entry s).mem = writeCells image 0 s.mem := rfl
@[simp] theorem loaded_stack (image : List Byte) (entry : Nat) (s : State) :
    (loaded image entry s).stack = s.stack := rfl
@[simp] theorem loaded_status (image : List Byte) (entry : Nat) (s : State) :
    (loaded image entry s).status = .running := rfl
@[simp] theorem loaded_fault (image : List Byte) (entry : Nat) (s : State) :
    (loaded image entry s).fault = s.fault := rfl
@[simp] theorem loaded_plen (image : List Byte) (entry : Nat) (s : State) :
    (loaded image entry s).plen = image.length := rfl
@[simp] theorem loaded_out (image : List Byte) (entry : Nat) (s : State) :
    (loaded image entry s).out = s.out := rfl
@[simp] theorem loaded_sp (image : List Byte) (entry : Nat) (s : State) :
    (loaded image entry s).sp = s.sp := rfl

@[simp] theorem setStack_sp (k : List Byte) (s : State) : (setStack k s).sp = k.length := rfl
@[simp] theorem setMem_cell (m : Memory) (s : State) (a : Nat) :
    (setMem m s).cell a = readCell m a := rfl

end Sys2Proof.Machine
end

