-- ==== Sys2Proof/Laws/Memory.lean ====
section
/-! SUPPORT. The laws of the memory: a read after a write, the canonical form kept by every memory
operation, and equal memories as equal lists. -/

namespace Sys2Proof.Machine

theorem readCell_consCell (a : Nat) (v : Byte) (m : Memory) (b : Nat)
    (hm : readCell m a = Config.memFill a) :
    readCell (consCell a v m) b = if b = a then v else readCell m b := by
  unfold consCell
  split
  · next hv =>
    split
    · next hb => rw [hb, hm, hv]
    · rfl
  · simp only [readCell, eq_comm (a := a)]

/-- An address below every listed one, or in no cell at all, reads as its fill. -/
theorem readCell_of_unlisted (m : Memory) (a : Nat) (h : ∀ c ∈ m, c.1 ≠ a) :
    readCell m a = Config.memFill a := by
  induction m with
  | nil => rfl
  | cons c rest ih =>
    obtain ⟨k, w⟩ := c
    have hk : k ≠ a := h (k, w) (by simp)
    simp only [readCell, if_neg hk]
    exact ih fun d hd => h d (by simp [hd])

/-- A read after a write: the written address holds the value, every other one what it held. -/
theorem readCell_writeCell (m : Memory) (a : Nat) (v : Byte) (b : Nat)
    (hm : m.Pairwise fun c d => c.1 < d.1) :
    readCell (writeCell m a v) b = if b = a then v else readCell m b := by
  induction m with
  | nil => exact readCell_consCell a v [] b rfl
  | cons c rest ih =>
    obtain ⟨k, w⟩ := c
    obtain ⟨hk, hrest⟩ := List.pairwise_cons.mp hm
    simp only [writeCell]
    split
    · next hak =>
      refine readCell_consCell a v _ b (readCell_of_unlisted _ _ fun d hd => ?_)
      rcases List.mem_cons.mp hd with rfl | hd
      · simp only; omega
      · have := hk d hd; omega
    · split
      · next _ hak =>
        subst hak
        rw [readCell_consCell a v rest b (readCell_of_unlisted _ _ fun d hd => by
          have := hk d hd; omega)]
        simp only [readCell]
        split
        · rfl
        · next hb => rw [if_neg (Ne.symm hb)]
      · next _ hak =>
        simp only [readCell, ih hrest]
        split
        · next hb => rw [if_neg (by omega)]
        · rfl

theorem mem_consCell {a : Nat} {v : Byte} {m : Memory} {c : Host.Cell} (h : c ∈ consCell a v m) :
    c ∈ m ∨ (c = (a, v) ∧ v ≠ Config.memFill a) := by
  unfold consCell at h
  split at h
  · exact .inl h
  · next hv =>
    rcases List.mem_cons.mp h with h | h
    · exact .inr ⟨h, hv⟩
    · exact .inl h

theorem mem_writeCell {m : Memory} {a : Nat} {v : Byte} {c : Host.Cell} (h : c ∈ writeCell m a v) :
    c ∈ m ∨ (c = (a, v) ∧ v ≠ Config.memFill a) := by
  induction m with
  | nil => exact mem_consCell h
  | cons d rest ih =>
    simp only [writeCell] at h
    split at h
    · exact mem_consCell h
    · split at h
      · exact (mem_consCell h).imp_left fun h => List.mem_cons_of_mem _ h
      · rcases List.mem_cons.mp h with h | h
        · exact .inl (by simp [h])
        · exact (ih h).imp_left fun h => List.mem_cons_of_mem _ h

theorem consCell_pairwise {a : Nat} {v : Byte} {m : Memory}
    (hm : m.Pairwise fun c d => c.1 < d.1) (ha : ∀ c ∈ m, a < c.1) :
    (consCell a v m).Pairwise fun c d => c.1 < d.1 := by
  unfold consCell
  split
  · exact hm
  · exact List.pairwise_cons.mpr ⟨ha, hm⟩

theorem writeCell_pairwise {m : Memory} (a : Nat) (v : Byte)
    (hm : m.Pairwise fun c d => c.1 < d.1) :
    (writeCell m a v).Pairwise fun c d => c.1 < d.1 := by
  induction m with
  | nil => exact consCell_pairwise hm (by simp)
  | cons c rest ih =>
    obtain ⟨k, w⟩ := c
    obtain ⟨hk, hrest⟩ := List.pairwise_cons.mp hm
    simp only [writeCell]
    split
    · next hak =>
      refine consCell_pairwise hm fun d hd => ?_
      rcases List.mem_cons.mp hd with rfl | hd
      · exact hak
      · have := hk d hd; omega
    · split
      · next _ hak => exact consCell_pairwise hrest fun d hd => by have := hk d hd; omega
      · next hlt hak =>
        refine List.pairwise_cons.mpr ⟨fun d hd => ?_, ih hrest⟩
        rcases mem_writeCell hd with hd | ⟨rfl, -⟩
        · exact hk d hd
        · simp only; omega

/-- Writing one cell keeps the canonical form. -/
theorem writeCell_wf {m : Memory} {a : Nat} (v : Byte) (hm : Memory.wf m) (ha : a < Config.memSize) :
    Memory.wf (writeCell m a v) :=
  ⟨writeCell_pairwise a v hm.1, fun c hc => by
    rcases mem_writeCell hc with hc | ⟨rfl, hv⟩
    · exact hm.2 c hc
    · exact ⟨ha, hv⟩⟩

/-- `MemWrite` keeps the canonical form (it faults at an address that does not exist). -/
theorem memWrite_wf {a : Nat} {v : Byte} {s t : State} (h : memWrite a v s = .ok t)
    (hs : Memory.wf s.mem) : Memory.wf t.mem := by
  unfold memWrite at h
  split at h
  · next ha => cases h; exact writeCell_wf v hs ha
  · cases h

/-- Writing an image that ends inside the memory keeps the canonical form. -/
theorem writeCells_wf (vs : List Byte) (a : Nat) {m : Memory} (hm : Memory.wf m)
    (ha : a + vs.length ≤ Config.memSize) : Memory.wf (writeCells vs a m) := by
  induction vs generalizing a m with
  | nil => exact hm
  | cons v rest ih =>
    simp only [List.length_cons] at ha
    exact ih (a + 1) (writeCell_wf v hm (by omega)) (by omega)

/-- The memory of a reset with a given fill is in canonical form. -/
theorem filledMemory_wf (fill : Nat → Byte) : Memory.wf (filledMemory fill) := by
  refine ⟨?_, fun c hc => ?_⟩
  · refine List.Pairwise.filterMap _ ?_ List.pairwise_lt_range
    intro a b hab c hc d hd
    split at hc <;> simp only [Option.some.injEq, reduceCtorEq] at hc
    split at hd <;> simp only [Option.some.injEq, reduceCtorEq] at hd
    subst hc hd
    exact hab
  · obtain ⟨a, ha, h⟩ := List.mem_filterMap.mp hc
    split at h
    · cases h
    · next hne => cases h; exact ⟨List.mem_range.mp ha, hne⟩

/-- A read after an image was written: the image's byte inside it, what the cell held elsewhere. -/
theorem readCell_writeCells (vs : List Byte) (a : Nat) {m : Memory} (hm : Memory.wf m)
    (ha : a + vs.length ≤ Config.memSize) (b : Nat) :
    readCell (writeCells vs a m) b =
      if h : a ≤ b ∧ b < a + vs.length then vs[b - a] else readCell m b := by
  induction vs generalizing a m with
  | nil => simp [writeCells, show ¬ (a ≤ b ∧ b < a) by omega]
  | cons v rest ih =>
    simp only [List.length_cons] at ha
    rw [writeCells, ih (a + 1) (writeCell_wf v hm (by omega)) (by omega),
      readCell_writeCell m a v b hm.1]
    rcases Nat.lt_trichotomy b a with hb | hb | hb
    · simp [show ¬ a + 1 ≤ b by omega, show ¬ a ≤ b by omega]
      omega
    · subst hb
      simp
    · by_cases hc : b < a + (rest.length + 1)
      · rw [dif_pos (by omega), dif_pos (by simp only [List.length_cons]; omega)]
        simp only [show b - a = b - (a + 1) + 1 by omega, List.getElem_cons_succ]
      · rw [dif_neg (by omega), dif_neg (by simp only [List.length_cons]; omega), if_neg (by omega)]

/-- A read of a memory filled from `l` on, for `n` cells. -/
theorem readCell_fill_range (fill : Nat → Byte) (l n a : Nat) :
    readCell ((List.range' l n).filterMap fun a =>
      if fill a = Config.memFill a then none else some (a, fill a)) a =
      if l ≤ a ∧ a < l + n then fill a else Config.memFill a := by
  induction n generalizing l with
  | zero => simp [readCell]
  | succ n ih =>
    have hrest : a ≠ l → (if l + 1 ≤ a ∧ a < l + 1 + n then fill a else Config.memFill a) =
        if l ≤ a ∧ a < l + (n + 1) then fill a else Config.memFill a := by
      intro hne
      by_cases h : l + 1 ≤ a ∧ a < l + 1 + n
      · rw [if_pos h, if_pos (by omega)]
      · rw [if_neg h, if_neg (by omega)]
    rw [List.range'_succ, List.filterMap_cons]
    by_cases hl : fill l = Config.memFill l
    · simp only [if_pos hl]
      rw [ih]
      by_cases h : a = l
      · subst h
        simp [hl]
      · exact hrest h
    · simp only [if_neg hl, readCell]
      by_cases h : l = a
      · subst h
        simp
      · rw [if_neg h, ih]
        exact hrest (Ne.symm h)

/-- Every cell of the memory of a reset holds its fill. -/
theorem readCell_filledMemory (fill : Nat → Byte) {a : Nat} (ha : a < Config.memSize) :
    readCell (filledMemory fill) a = fill a := by
  rw [filledMemory, List.range_eq_range', readCell_fill_range, if_pos (by simpa using ha)]

/-- With the default fill no cell is listed. -/
theorem filledMemory_default : filledMemory Config.memFill = [] := by
  unfold filledMemory
  exact List.filterMap_eq_nil_iff.mpr fun a _ => if_pos rfl

/-- With the default parameters the reset is `State.reset` (rule R28). -/
theorem resetWith_default : resetWith Config.regReset Config.memFill = State.reset := by
  simp only [resetWith, filledMemory_default]
  rfl

/-- The memory right after reset is in canonical form. -/
theorem reset_mem_wf : Memory.wf State.reset.mem := by decide

/-- Placing an instruction for the next fetch keeps the canonical form. -/
theorem placeInstruction_wf {bytes : List Byte} {s : State} (hs : Memory.wf s.mem)
    (hb : bytes.length ≤ Config.memSize) : Memory.wf (placeInstruction bytes s).mem := by
  refine writeCells_wf bytes _ hs ?_
  unfold placeAddress
  split <;> omega

end Sys2Proof.Machine
end

