-- ==== Sys2Proof/Laws/Ops.lean ====
section
/-! SUPPORT. For each shared operation, what it does, once: its value where it succeeds, its fault where
it fails, and what it leaves alone. Later proofs cite these instead of unfolding the operation. -/

namespace Sys2Proof.Machine

/-! ### Registers -/

theorem readReg_of_lt {i : Nat} (s : State) (h : i < Config.nreg) : readReg i s = .ok s.regs[i] :=
  dif_pos h

theorem readReg_of_ge {i : Nat} (s : State) (h : ¬ i < Config.nreg) :
    readReg i s = .error (.outOfRange .register i) := dif_neg h

theorem writeReg_of_lt {i : Nat} (v : Nat) (s : State) (h : i < Config.nreg) :
    writeReg i v s = .ok (setReg i h (BitVec.ofNat 8 v) s) := dif_pos h

theorem writeReg_of_ge {i : Nat} (v : Nat) (s : State) (h : ¬ i < Config.nreg) :
    writeReg i v s = .error (.outOfRange .register i) := dif_neg h

theorem writeReg_ok {i v : Nat} {s t : State} (h : writeReg i v s = .ok t) :
    ∃ hi : i < Config.nreg, t = setReg i hi (BitVec.ofNat 8 v) s := by
  unfold writeReg at h
  split at h
  · next hi => cases h; exact ⟨hi, rfl⟩
  · cases h

theorem setReg_same {i : Nat} (h : i < Config.nreg) (v : Byte) (s : State) :
    (setReg i h v s).regs[i] = v := by simp

theorem setReg_other {i j : Nat} (h : i < Config.nreg) (hj : j < Config.nreg) (v : Byte) (s : State)
    (hne : j ≠ i) : (setReg i h v s).regs[j] = s.regs[j] := by
  simp [Ne.symm hne]

/-! ### Memory reads -/

theorem memRead_of_lt {a : Nat} (s : State) (h : a < Config.memSize) : memRead a s = .ok (s.cell a) :=
  if_pos h

theorem memRead_of_ge {a : Nat} (s : State) (h : ¬ a < Config.memSize) :
    memRead a s = .error (.outOfRange .memory a) := if_neg h

/-! ### The call stack -/

theorem pushStack_of_room {cap : Option Nat} (v : Byte) {s : State} (h : cap ≠ some s.sp) :
    pushStack cap v s = .ok (setStack (s.stack ++ [v]) s) := if_neg h

theorem pushStack_of_full {cap : Option Nat} (v : Byte) {s : State} (h : cap = some s.sp) :
    pushStack cap v s = .error (.stackOverflow s.pc) := if_pos h

theorem popStack_of_empty {s : State} (h : s.stack = []) :
    popStack s = .error (.stackUnderflow s.pc) := by simp [popStack, h]

theorem popStack_of_top {s : State} {older : List Byte} {v : Byte} (h : s.stack = older ++ [v]) :
    popStack s = .ok (v, setStack older s) := by simp [popStack, h]

/-- Everything `Pop()` can do. -/
theorem popStack_cases (s : State) :
    (s.stack = [] ∧ popStack s = .error (.stackUnderflow s.pc)) ∨
    ∃ older v, s.stack = older ++ [v] ∧ popStack s = .ok (v, setStack older s) := by
  rcases List.eq_nil_or_concat' s.stack with h | ⟨older, v, h⟩
  · exact .inl ⟨h, popStack_of_empty h⟩
  · exact .inr ⟨older, v, h, popStack_of_top h⟩

/-! ### The end of an instruction -/

theorem complete_ok (n : Nat) (s t : State) : complete n s (.ok t) = .next (setPc (s.pc + 1 + n) t) := rfl

theorem complete_error (n : Nat) (s : State) (f : FaultRecord) :
    complete n s (.error f) = .next (raise f s) := rfl

/-- The end of an instruction always answers a next state: the handler's with the advance, or the fault
entry of the state the instruction started in. -/
theorem complete_cases {n : Nat} {s t : State} {r : Except FaultRecord State}
    (h : complete n s r = .next t) :
    (∃ u, r = .ok u ∧ t = setPc (s.pc + 1 + n) u) ∨ ∃ f, r = .error f ∧ t = raise f s := by
  cases r with
  | ok u => exact .inl ⟨u, rfl, by simpa [complete] using h.symm⟩
  | error f => exact .inr ⟨f, rfl, by simpa [complete] using h.symm⟩

/-! ### Fetch -/

theorem fetch_of_illegal {opc : Mnemonic → Byte} {s : State} (hpc : s.pc < Config.memSize)
    (h : lookup opc (s.cell s.pc) = none) :
    fetch opc s = .error (.illegalInstruction (s.cell s.pc) s.pc) := by
  simp [fetch, memRead_of_lt s hpc, h]

theorem fetch_of_legal {opc : Mnemonic → Byte} {s : State} {m : Mnemonic} (hpc : s.pc < Config.memSize)
    (h : lookup opc (s.cell s.pc) = some m) : fetch opc s = fetchOperands m s := by
  simp [fetch, memRead_of_lt s hpc, h]

theorem fetchOperand_of_absent {n k : Nat} (s : State) (h : ¬ k ≤ n) : fetchOperand n k s = .ok 0#8 :=
  if_neg h

theorem fetchOperand_of_present {n k : Nat} (s : State) (h : k ≤ n) :
    fetchOperand n k s = memRead (s.pc + k) s := if_pos h

theorem operandCount_le_two (m : Mnemonic) : operandCount m ≤ 2 := by cases m <;> decide

theorem assemble_of_no_operand {m : Mnemonic} (h : ¬ 1 ≤ operandCount m) (a b c d : Byte) :
    assemble m a b = assemble m c d := by
  cases m <;> first | rfl | exact absurd (by decide) h

theorem assemble_of_one_operand {m : Mnemonic} (h : ¬ 2 ≤ operandCount m) (a b d : Byte) :
    assemble m a b = assemble m a d := by
  cases m <;> first | rfl | exact absurd (by decide) h

/-- Where every operand byte lies inside the memory, the operands are the bytes after the opcode. -/
theorem fetchOperands_of_fits {m : Mnemonic} {s : State}
    (h : s.pc + operandCount m < Config.memSize) :
    fetchOperands m s = .ok (assemble m (s.cell (s.pc + 1)) (s.cell (s.pc + 2))) := by
  unfold fetchOperands
  by_cases h1 : 1 ≤ operandCount m
  · rw [fetchOperand_of_present s h1, memRead_of_lt s (by omega)]
    by_cases h2 : 2 ≤ operandCount m
    · rw [fetchOperand_of_present s h2, memRead_of_lt s (by omega)]
    · rw [fetchOperand_of_absent s h2]
      exact congrArg Except.ok (assemble_of_one_operand h2 _ _ _)
  · rw [fetchOperand_of_absent s h1, fetchOperand_of_absent s (by omega)]
    exact congrArg Except.ok (assemble_of_no_operand h1 _ _ _ _)

/-- Where an operand byte lies past the end of the memory, the fault names address 256. -/
theorem fetchOperands_of_past_end {m : Mnemonic} {s : State} (hpc : s.pc < Config.memSize)
    (h : ¬ s.pc + operandCount m < Config.memSize) :
    fetchOperands m s = .error (.outOfRange .memory Config.memSize) := by
  have hm := operandCount_le_two m
  unfold fetchOperands
  rw [fetchOperand_of_present s (show 1 ≤ operandCount m by omega)]
  by_cases h1 : s.pc + 1 < Config.memSize
  · rw [memRead_of_lt s h1, fetchOperand_of_present s (by omega), memRead_of_ge s (by omega)]
    have : s.pc + 2 = Config.memSize := by omega
    simp only [this]
  · rw [memRead_of_ge s h1]
    have : s.pc + 1 = Config.memSize := by omega
    simp only [this]

/-! ### The cycle -/

theorem cycle_of_running {opc : Mnemonic → Byte}
    {run : Instr → State → Host.Outcome State Fault Refusal} {s : State} (h : s.status = .running) :
    cycle opc run s = runningCycle opc run s := by simp [cycle, h]

theorem runningCycle_of_past_image {opc : Mnemonic → Byte}
    {run : Instr → State → Host.Outcome State Fault Refusal} {s : State} (h : s.plen ≤ s.pc) :
    runningCycle opc run s = .next (setStatus .halted s) := if_pos h

theorem cycle_of_fetched {opc : Mnemonic → Byte}
    {run : Instr → State → Host.Outcome State Fault Refusal} {s : State} {i : Instr}
    (hs : s.status = .running) (hp : s.pc < s.plen) (hf : fetch opc s = .ok i) :
    cycle opc run s = run i s := by
  rw [cycle_of_running hs, runningCycle, if_neg (by omega), hf]

theorem cycle_of_fetch_fault {opc : Mnemonic → Byte}
    {run : Instr → State → Host.Outcome State Fault Refusal} {s : State} {f : FaultRecord}
    (hs : s.status = .running) (hp : s.pc < s.plen) (hf : fetch opc s = .error f) :
    cycle opc run s = .next (raise f s) := by
  rw [cycle_of_running hs, runningCycle, if_neg (by omega), hf]

/-- Everything a step can do that answers a next state: the halt test, a fault of the fetch, or the
dispatch of the fetched instruction. -/
theorem cycle_cases {opc : Mnemonic → Byte}
    {run : Instr → State → Host.Outcome State Fault Refusal} {s t : State}
    (h : cycle opc run s = .next t) :
    s.status = .running ∧
      ((s.plen ≤ s.pc ∧ t = setStatus .halted s) ∨
       (s.pc < s.plen ∧ ∃ f, fetch opc s = .error f ∧ t = raise f s) ∨
       (s.pc < s.plen ∧ ∃ i, fetch opc s = .ok i ∧ run i s = .next t)) := by
  unfold cycle at h
  split at h <;> try cases h
  next hs =>
  refine ⟨hs, ?_⟩
  unfold runningCycle at h
  split at h
  · next hp => cases h; exact .inl ⟨hp, rfl⟩
  · next hp =>
    cases hf : fetch opc s with
    | error f =>
      rw [hf] at h
      cases h
      exact .inr (.inl ⟨by omega, f, rfl, rfl⟩)
    | ok i =>
      rw [hf] at h
      exact .inr (.inr ⟨by omega, i, rfl, h⟩)

end Sys2Proof.Machine
end

