-- ==== Sys2Proof/Laws/Decode.lean ====
section
/-! SUPPORT. The lookup and the fetch, read off once: which mnemonic a byte names, which bytes an
instruction at `pc` can have, and that a step fetches what the decoder reads from them. -/

namespace Sys2Proof.Machine

/-- A lookup that finds a mnemonic was given that mnemonic's opcode byte. -/
theorem eq_opc_of_lookup {opc : Mnemonic → Byte} {b : Byte} {m : Mnemonic}
    (h : lookup opc b = some m) : b = opc m := by
  unfold lookup at h
  repeat' split at h
  all_goals first
    | cases h; assumption
    | cases h

theorem instrBytes_of_ge {s : State} (h : ¬ s.pc < Config.memSize) : instrBytes s = [] := by
  simp only [instrBytes, maxWidth, Config.memSize] at h ⊢
  rw [show List.range 3 = [0, 1, 2] from rfl]
  simp [h, show ¬ s.pc + 1 < 256 by omega, show ¬ s.pc + 2 < 256 by omega]

theorem instrBytes_at_end {s : State} (h : s.pc + 1 = Config.memSize) :
    instrBytes s = [s.cell s.pc] := by
  simp only [instrBytes, maxWidth, Config.memSize] at h ⊢
  rw [show List.range 3 = [0, 1, 2] from rfl]
  simp [show s.pc < 256 by omega, show ¬ s.pc + 1 < 256 by omega, show ¬ s.pc + 2 < 256 by omega]

theorem instrBytes_near_end {s : State} (h : s.pc + 2 = Config.memSize) :
    instrBytes s = [s.cell s.pc, s.cell (s.pc + 1)] := by
  simp only [instrBytes, maxWidth, Config.memSize] at h ⊢
  rw [show List.range 3 = [0, 1, 2] from rfl]
  simp [show s.pc < 256 by omega, show s.pc + 1 < 256 by omega, show ¬ s.pc + 2 < 256 by omega]

theorem instrBytes_inside {s : State} (h : s.pc + 2 < Config.memSize) :
    instrBytes s = [s.cell s.pc, s.cell (s.pc + 1), s.cell (s.pc + 2)] := by
  simp only [instrBytes, maxWidth, Config.memSize] at h ⊢
  rw [show List.range 3 = [0, 1, 2] from rfl]
  simp [show s.pc < 256 by omega, show s.pc + 1 < 256 by omega, h]

/-- The fetch gives an instruction exactly where the decoder reads it from the bytes at `pc`. -/
theorem fetch_ok_iff (opc : Mnemonic → Byte) (s : State) (i : Instr) :
    fetch opc s = .ok i ↔ ∃ rest, decodeBytes opc (instrBytes s) = .ok (i, rest) := by
  by_cases h : s.pc < Config.memSize
  · cases hm : lookup opc (s.cell s.pc) with
    | none =>
      rw [fetch_of_illegal h hm]
      have hb : ∃ l, instrBytes s = s.cell s.pc :: l := by
        rcases Nat.lt_trichotomy (s.pc + 2) Config.memSize with h2 | h2 | h2
        · exact ⟨_, instrBytes_inside h2⟩
        · exact ⟨_, instrBytes_near_end h2⟩
        · exact ⟨_, instrBytes_at_end (by omega)⟩
      obtain ⟨l, hl⟩ := hb
      simp [hl, decodeBytes, hm]
    | some m =>
      rw [fetch_of_legal h hm]
      rcases Nat.lt_trichotomy (s.pc + 2) Config.memSize with h2 | h2 | h2
      · rw [instrBytes_inside h2,
          fetchOperands_of_fits (Nat.lt_of_le_of_lt (Nat.add_le_add_left (operandCount_le_two m) _) h2)]
        cases m <;> simp [decodeBytes, hm, decodeOperands, operandCount, descriptor, assemble]
      · rw [instrBytes_near_end h2]
        by_cases hf : s.pc + operandCount m < Config.memSize
        · rw [fetchOperands_of_fits hf]
          cases m <;> simp only [operandCount, descriptor] at hf <;>
            first
              | exact absurd hf (by omega)
              | simp [decodeBytes, hm, decodeOperands, operandCount, descriptor, assemble]
        · rw [fetchOperands_of_past_end h hf]
          cases m <;> simp only [operandCount, descriptor] at hf <;>
            first
              | exact absurd hf (by omega)
              | simp [decodeBytes, hm, decodeOperands, operandCount, descriptor]
      · rw [instrBytes_at_end (by omega)]
        by_cases hf : s.pc + operandCount m < Config.memSize
        · rw [fetchOperands_of_fits hf]
          cases m <;> simp only [operandCount, descriptor] at hf <;>
            first
              | exact absurd hf (by omega)
              | simp [decodeBytes, hm, decodeOperands, operandCount, descriptor, assemble]
        · rw [fetchOperands_of_past_end h hf]
          cases m <;> simp only [operandCount, descriptor] at hf <;>
            first
              | exact absurd hf (by omega)
              | simp [decodeBytes, hm, decodeOperands, operandCount, descriptor]
  · rw [instrBytes_of_ge h]
    simp [fetch, memRead_of_ge s h, decodeBytes]

end Sys2Proof.Machine
end

