-- ==== Sys2Proof/Laws/Exec.lean ====
section
/-! SUPPORT. What each handler can do, once: the cases of its success and of its fault; and that every
meaning is its handler followed by the advance. -/

namespace Sys2Proof.Machine

/-- The handler of an instruction, before the advance (rule R77). -/
def handlerOf (i : Instr) (s : State) : Except FaultRecord State :=
  match i with
  | .hlt => hlt s
  | .ldi rd imm => ldi rd imm s
  | .prn rs => prn rs s
  | .mul ra rb => mul ra rb s
  | .push rs => push Config.stackCapacity rs s
  | .pop rd => pop rd s

/-- Every meaning is its handler, then the advance by its width or the fault entry (rules R77 and R78). -/
theorem exec_eq_complete (i : Instr) (s : State) :
    exec i s = complete (operandCount (mnemonicOf i)) s (handlerOf i s) := by
  cases i <;> rfl

theorem ldi_cases (rd imm : Byte) (s : State) :
    (∃ h : rd.toNat < 8, ldi rd imm s = .ok (setReg rd.toNat h imm s)) ∨
    (8 ≤ rd.toNat ∧ ldi rd imm s = .error (.outOfRange .register rd.toNat)) := by
  unfold ldi writeOperand regIndex immediate
  rcases Nat.lt_or_ge rd.toNat 8 with h | h
  · exact .inl ⟨h, by rw [writeReg_of_lt _ s h, BitVec.ofNat_toNat, BitVec.setWidth_eq]⟩
  · exact .inr ⟨h, writeReg_of_ge _ s (Nat.not_lt.mpr h)⟩

theorem prn_cases (rs : Byte) (s : State) :
    (∃ h : rs.toNat < 8, prn rs s = .ok (emit s.regs[rs.toNat] s)) ∨
    (8 ≤ rs.toNat ∧ prn rs s = .error (.outOfRange .register rs.toNat)) := by
  unfold prn readOperand regIndex
  rcases Nat.lt_or_ge rs.toNat 8 with h | h
  · exact .inl ⟨h, by rw [readReg_of_lt s h]⟩
  · exact .inr ⟨h, by rw [readReg_of_ge s (Nat.not_lt.mpr h)]⟩

theorem mul_cases (ra rb : Byte) (s : State) :
    (∃ (ha : ra.toNat < 8) (hb : rb.toNat < 8), mul ra rb s =
      .ok (setReg ra.toNat ha (BitVec.ofNat 8 (product s.regs[ra.toNat] s.regs[rb.toNat])) s)) ∨
    (8 ≤ ra.toNat ∧ mul ra rb s = .error (.outOfRange .register ra.toNat)) ∨
    (ra.toNat < 8 ∧ 8 ≤ rb.toNat ∧ mul ra rb s = .error (.outOfRange .register rb.toNat)) := by
  unfold mul readOperand writeOperand regIndex
  rcases Nat.lt_or_ge ra.toNat 8 with ha | ha
  · rw [readReg_of_lt s ha]
    rcases Nat.lt_or_ge rb.toNat 8 with hb | hb
    · exact .inl ⟨ha, hb, by rw [readReg_of_lt s hb]; exact writeReg_of_lt _ s ha⟩
    · exact .inr (.inr ⟨ha, hb, by rw [readReg_of_ge s (Nat.not_lt.mpr hb)]⟩)
  · exact .inr (.inl ⟨ha, by rw [readReg_of_ge s (Nat.not_lt.mpr ha)]⟩)

theorem push_cases (cap : Option Nat) (rs : Byte) (s : State) :
    (∃ h : rs.toNat < 8, cap ≠ some s.sp ∧
      push cap rs s = .ok (setStack (s.stack ++ [s.regs[rs.toNat]]) s)) ∨
    (8 ≤ rs.toNat ∧ push cap rs s = .error (.outOfRange .register rs.toNat)) ∨
    (rs.toNat < 8 ∧ cap = some s.sp ∧ push cap rs s = .error (.stackOverflow s.pc)) := by
  unfold push readOperand regIndex
  rcases Nat.lt_or_ge rs.toNat 8 with h | h
  · rw [readReg_of_lt s h]
    by_cases hc : cap = some s.sp
    · exact .inr (.inr ⟨h, hc, pushStack_of_full _ hc⟩)
    · exact .inl ⟨h, hc, pushStack_of_room _ hc⟩
  · exact .inr (.inl ⟨h, by rw [readReg_of_ge s (Nat.not_lt.mpr h)]⟩)

theorem pop_cases (rd : Byte) (s : State) :
    (∃ (h : rd.toNat < 8) (older : List Byte) (v : Byte), s.stack = older ++ [v] ∧
      pop rd s = .ok (setReg rd.toNat h v (setStack older s))) ∨
    (s.stack = [] ∧ pop rd s = .error (.stackUnderflow s.pc)) ∨
    (s.stack ≠ [] ∧ 8 ≤ rd.toNat ∧ pop rd s = .error (.outOfRange .register rd.toNat)) := by
  unfold pop writeOperand regIndex
  rcases popStack_cases s with ⟨hs, h⟩ | ⟨older, v, hs, h⟩
  · exact .inr (.inl ⟨hs, by rw [h]⟩)
  · rw [h]
    rcases Nat.lt_or_ge rd.toNat 8 with hr | hr
    · exact .inl ⟨hr, older, v, hs, by
        simp only [writeReg_of_lt _ _ hr, BitVec.ofNat_toNat, BitVec.setWidth_eq]⟩
    · exact .inr (.inr ⟨by simp [hs], hr, writeReg_of_ge _ _ (Nat.not_lt.mpr hr)⟩)

/-- In the default build the execution of an instruction is `exec`. -/
theorem execFor_default : execFor Build.default = exec := by
  funext i s
  cases i <;> rfl

end Sys2Proof.Machine
end

