-- ==== Sys2Proof/Laws/PerInstr.lean ====
section
/-! SUPPORT. Per-instruction facts about the encoding as syntax. -/

namespace Sys2Proof.Laws.EncodingShape

/-- Under every opcode map, the encoding of the instruction is its opcode byte followed by exactly its
operand count of bytes, so as many bytes as its width, 1 to 3 (rules R50 and R58). -/
def Statement (i : Instr) : Prop :=
  ∀ opc : Mnemonic → Byte,
    (encodeWith opc i).head? = some (opc (mnemonicOf i)) ∧
    (encodeWith opc i).length = width i ∧ 1 ≤ width i ∧ width i ≤ maxWidth

theorem hlt : Statement .hlt := fun _ => ⟨rfl, rfl, by decide, by decide⟩

theorem ldi (rd imm : Byte) : Statement (.ldi rd imm) :=
  fun _ => ⟨rfl, rfl, Nat.le_add_right 1 _, Nat.le_refl 3⟩

theorem prn (rs : Byte) : Statement (.prn rs) :=
  fun _ => ⟨rfl, rfl, Nat.le_add_right 1 _, Nat.le_succ 2⟩

theorem mul (ra rb : Byte) : Statement (.mul ra rb) :=
  fun _ => ⟨rfl, rfl, Nat.le_add_right 1 _, Nat.le_refl 3⟩

theorem push (rs : Byte) : Statement (.push rs) :=
  fun _ => ⟨rfl, rfl, Nat.le_add_right 1 _, Nat.le_succ 2⟩

theorem pop (rd : Byte) : Statement (.pop rd) :=
  fun _ => ⟨rfl, rfl, Nat.le_add_right 1 _, Nat.le_succ 2⟩

end Sys2Proof.Laws.EncodingShape
end

