-- ==== Sys2Proof/Machine/Loader.lean ====
section
/-! DEFINITION. The loader's text format (rule R61), which turns a program file into an image. The loader
is outside the hardware (00_scope.md section 1.4); no step depends on this file. -/

namespace Sys2Proof.Machine

/-- A blank inside a line (PRESUMED: space, tab and carriage return, log entry 11). -/
def isBlank (c : Char) : Bool := c = ' ' || c = '\t' || c = '\r'

/-- The content of a line: what stands before a `#`, without blanks at its two ends (rule R61). -/
def lineContent (line : List Char) : List Char :=
  (((line.takeWhile (· ≠ '#')).dropWhile isBlank).reverse.dropWhile isBlank).reverse

/-- A token of 1 to 8 binary digits as a byte, leftmost digit most significant; anything else is
malformed (rule R61, decision D17). -/
def tokenByte (token : List Char) : Option Byte :=
  if token.length ≤ 8 ∧ token ≠ [] ∧ token.all (fun c => c = '0' || c = '1') then
    some (BitVec.ofNat 8 (token.foldl (fun n c => 2 * n + if c = '1' then 1 else 0) 0))
  else none

/-- The image of a program text, one byte per line that holds a token; `none` when a line is malformed
(rule R61). -/
def parseProgram (lines : List (List Char)) : Option (List Byte) :=
  match lines with
  | [] => some []
  | line :: rest =>
    if lineContent line = [] then parseProgram rest
    else
      match tokenByte (lineContent line), parseProgram rest with
      | some b, some image => some (b :: image)
      | _, _ => none

end Sys2Proof.Machine
end

