-- ==== Sys2Proof/Tests/Slice0.lean ====
section
/-! SUPPORT. Tests. Expected results come from 95_test_vectors.md (V<table> #<row>, P<program>) or from the
encodings of 30_encoding.md. The `witness_` theorems show, for each statement that has hypotheses, a
concrete state and operands that meet them, one conjunct a clause. -/

namespace Sys2Proof.Tests

open Sys2Proof Sys2Proof.Machine

/-- A running machine with `bytes` at `pc`, `PLEN` as given, all else as after reset. -/
def at_ (pc plen : Nat) (bytes : List Byte) : State :=
  { State.reset with mem := writeCells bytes pc [], pc := pc, plen := plen, status := .running }

/-- The same with a call stack. -/
def withStack (k : List Byte) (s : State) : State := { s with stack := k }

/-- The same with one register set. -/
def withReg (i : Fin 8) (v : Byte) (s : State) : State := { s with regs := s.regs.set i v }

/-- One field of the state after a step. -/
def after {α : Type} (s : State) (f : State → α) : Option α :=
  match step s with
  | .next t => some (f t)
  | .fault _ => none
  | .refused _ => none

/-! ### Well-formedness: an ill-formed term for each check -/

theorem test_wellFormed_ldi : ¬ WellFormed (.ldi 8#8 0#8) ∧ WellFormed (.ldi 7#8 255#8) := by decide
theorem test_wellFormed_prn : ¬ WellFormed (.prn 8#8) ∧ WellFormed (.prn 7#8) := by decide
theorem test_wellFormed_mul_first : ¬ WellFormed (.mul 8#8 0#8) := by decide
theorem test_wellFormed_mul_second : ¬ WellFormed (.mul 0#8 8#8) ∧ WellFormed (.mul 7#8 7#8) := by
  decide
theorem test_wellFormed_push : ¬ WellFormed (.push 255#8) ∧ WellFormed (.push 0#8) := by decide
theorem test_wellFormed_pop : ¬ WellFormed (.pop 8#8) ∧ WellFormed (.pop 0#8) := by decide

/-! ### Decoding: the words of 30_encoding.md, written bit by bit (rules R51 and R54) -/

theorem test_decode_hlt : decodeTableWord 8 0b00000001 = some .hlt := by decide
theorem test_decode_ldi :
    decodeTableWord 24 0b11111110_00000101_10000010 = some (.ldi 0b00000101#8 0b11111110#8) := by decide
theorem test_decode_prn : decodeTableWord 16 0b00000011_01000111 = some (.prn 3#8) := by decide
theorem test_decode_mul :
    decodeTableWord 24 0b00000001_00000110_10100010 = some (.mul 6#8 1#8) := by decide
theorem test_decode_push : decodeTableWord 16 0b00000010_01000101 = some (.push 2#8) := by decide
theorem test_decode_pop : decodeTableWord 16 0b11111111_01000110 = some (.pop 255#8) := by decide
theorem test_decode_short_word : decodeTableWord 8 0b10000010 = some (.ldi 0#8 0#8) := by decide
theorem test_decode_illegal :
    decodeTableWord 8 0x00 = none ∧ decodeTableWord 8 0xA0 = none ∧ decodeTableWord 8 0x02 = none := by
  decide
theorem test_decode_missing_operand :
    (match decode [0x82#8, 0x00#8] with | .error e => some e | .ok _ => none) =
      some (.missingOperand .ldi) := by decide
/-- Rule R55: MUL is the one row of class ALU. -/
theorem test_descriptor_class :
    [Mnemonic.hlt, .ldi, .prn, .mul, .push, .pop].map (fun m => (descriptor m).cls) =
      [.general, .general, .general, .alu, .general, .general] := by decide
theorem test_encode : encode (.mul 0#8 1#8) = [0xA2#8, 0x00#8, 0x01#8] := by decide

/-! ### A placed instruction runs as the first one after reset -/

theorem test_place_ldi :
    after (State.reset.withFetchWord 24 0x080082) (fun t => (t.regs[0], t.pc)) = some (8#8, 3) := by
  decide
theorem test_place_hlt :
    after (State.reset.withFetchWord 8 0x01) (fun t => (t.status, t.pc)) = some (.halted, 1) := by decide
theorem test_place_at_end :
    after ((at_ 255 256 []).withFetchWord 16 0x0047) (fun t => (t.out, t.pc)) = some ([0#8], 2) := by
  decide

/-! ### Instructions: at most two vectors each -/

/-- V2 #3. -/
theorem test_hlt_at_255 :
    after (at_ 255 256 [0x01#8]) (fun t => (t.status, t.pc)) = some (.halted, 256) := by decide
/-- V2 #4. -/
theorem test_hlt_keeps_stack :
    after (withStack [5#8] (at_ 0 3 [0x01#8, 0x00#8, 0xFF#8])) (fun t => (t.stack, t.pc)) =
      some ([5#8], 1) := by decide
/-- V1 #17: operands past PLEN are read from the fill. -/
theorem test_ldi_cut_short :
    after (withReg 0 9#8 (at_ 1 2 [0x82#8])) (fun t => (t.regs[0], t.pc, t.status)) =
      some (0#8, 4, .running) := by decide
/-- V1 #10: the second operand lies past the memory. -/
theorem test_ldi_at_254 :
    after (at_ 254 256 [0x82#8, 0x00#8]) (fun t => (t.fault, t.status, t.pc)) =
      some (some (.outOfRange .memory 256), .faulted, 254) := by decide
/-- V4 #2: emissions are appended. -/
theorem test_prn_appends :
    after { at_ 0 2 [0x47#8, 0x03#8] with out := [7#8] } (fun t => (t.out, t.pc)) =
      some ([7#8, 0#8], 2) := by decide
/-- V4 #4: a bad register emits nothing. -/
theorem test_prn_bad_register :
    after (at_ 0 2 [0x47#8, 0x08#8]) (fun t => (t.fault, t.out)) =
      some (some (.outOfRange .register 8), []) := by decide
/-- V5 #9: 255 times 255 leaves 1; the other register stays. -/
theorem test_mul_wraps :
    after (withReg 0 255#8 (withReg 1 255#8 (at_ 6 9 [0xA2#8, 0x00#8, 0x01#8])))
      (fun t => (t.regs[0], t.regs[1], t.pc)) = some (1#8, 255#8, 9) := by decide
/-- V5 #19: the same register twice. -/
theorem test_mul_same_register :
    after (withReg 2 200#8 (at_ 0 3 [0xA2#8, 0x02#8, 0x02#8])) (fun t => t.regs[2]) = some 64#8 := by
  decide
/-- V6 #2: the newest entry is last. -/
theorem test_push_keeps_register :
    after (withReg 2 0xAB#8 (withStack [0x11#8] (at_ 2 4 [0x45#8, 0x02#8])))
      (fun t => (t.stack, t.regs[2], t.sp, t.pc)) = some ([0x11#8, 0xAB#8], 0xAB#8, 2, 4) := by decide
/-- V6 #9: register 7 and the memory are not the stack. -/
theorem test_push_not_in_memory :
    after (withReg 7 0xF4#8 (at_ 0 2 [0x45#8, 0x00#8])) (fun t => (t.regs[7], t.cell 0xF3)) =
      some (0xF4#8, 0#8) := by decide
/-- V6 #3. -/
theorem test_pop_takes_the_top :
    after (withStack [0x11#8, 0x22#8] (at_ 4 6 [0x46#8, 0x03#8])) (fun t => (t.regs[3], t.stack, t.pc)) =
      some (0x22#8, [0x11#8], 6) := by decide
/-- V6 #7: on a bad index the entry is not consumed. -/
theorem test_pop_bad_register :
    after (withStack [9#8] (at_ 5 7 [0x46#8, 0x09#8])) (fun t => (t.fault, t.stack, t.pc)) =
      some (some (.outOfRange .register 9), [9#8], 5) := by decide

/-! ### Loader text and rendering (rules R61 and R113) -/

/-- P1's first two lines, and a blank and a comment line. -/
theorem test_loader_text :
    parseProgram ["10000010 # LDI R0,8".toList, "".toList, "# data".toList, "00000000".toList] =
      some [0x82#8, 0x00#8] := by decide
theorem test_loader_malformed : parseProgram ["102".toList] = none := by decide
/-- P1 prints 72. -/
theorem test_render : renderOut [72#8] = ['7', '2', '\n'] := by decide

/-! ### Witnesses of the statements' hypotheses -/

theorem opcode_injective : Function.Injective opcode := by
  intro a b
  cases a <;> cases b <;> decide

theorem witness_DecodeOfEncode : Function.Injective opcode := opcode_injective

theorem witness_EncodeOfDecode :
    decodeBytes opcode [0x82#8, 0xFF#8, 0x00#8, 0x01#8] = .ok (.ldi 0xFF#8 0x00#8, [0x01#8]) := rfl

theorem witness_LookupFindsOwnOpcode : Function.Injective opcode ∧ lookup opcode 0x46#8 = some .pop :=
  ⟨opcode_injective, by decide⟩

theorem witness_VerdictByOpcodeAlone :
    lookup opcode 0xA0#8 = none ∧ lookup opcode 0x46#8 = some .pop := by decide

theorem witness_StepRunsDecodedInstruction :
    (at_ 253 256 [0x82#8, 0x08#8, 0x07#8]).status = .running ∧
    (at_ 253 256 [0x82#8, 0x08#8, 0x07#8]).pc < (at_ 253 256 [0x82#8, 0x08#8, 0x07#8]).plen ∧
    decode (instrBytes (at_ 253 256 [0x82#8, 0x08#8, 0x07#8])) = .ok (.ldi 8#8 7#8, []) :=
  ⟨rfl, by decide, rfl⟩

/-- Another injective opcode map: the default one with its six bytes moved up by one. -/
def otherOpc (m : Mnemonic) : Byte := opcode m + 1#8

theorem witness_AnyBuildRunsEncodedInstruction :
    Function.Injective otherOpc ∧ (at_ 254 256 [0x46#8, 0x02#8]).status = .running ∧
    (at_ 254 256 [0x46#8, 0x02#8]).pc < (at_ 254 256 [0x46#8, 0x02#8]).plen ∧
    instrBytes (at_ 254 256 [0x46#8, 0x02#8]) = encodeWith otherOpc (.push 2#8) ++ [] := by
  refine ⟨?_, rfl, by decide, rfl⟩
  intro a b
  cases a <;> cases b <;> decide

theorem witness_StepDefinedExactlyWhenRunning :
    (at_ 0 1 [0x01#8]).status = .running ∧ (setStatus .halted (at_ 0 1 [0x01#8])).status = .halted ∧
    (setStatus .faulted (at_ 0 1 [0x01#8])).status = .faulted := ⟨rfl, rfl, rfl⟩

theorem witness_IdleEngineHasNoStep : State.reset.status = .idle := rfl

/-- V1 #1 and #3. -/
theorem witness_HaltTestHalts :
    ((at_ 0 0 []).status = .running ∧ (at_ 0 0 []).plen ≤ (at_ 0 0 []).pc) ∧
    ((at_ 256 256 []).status = .running ∧ (at_ 256 256 []).plen ≤ (at_ 256 256 []).pc) := by decide

/-- V1 #8 and #6. -/
theorem witness_IllegalOpcodeFaults :
    ((at_ 255 256 [0xEE#8]).status = .running ∧ (at_ 255 256 [0xEE#8]).pc < 256 ∧
      (∀ m, (at_ 255 256 [0xEE#8]).cell 255 ≠ opcode m)) ∧
    ((at_ 0 1 [0xA0#8]).status = .running ∧ (at_ 0 1 [0xA0#8]).pc < (at_ 0 1 [0xA0#8]).plen ∧
      (∀ m, (at_ 0 1 [0xA0#8]).cell 0 ≠ (Build.default).opc m)) := by
  refine ⟨⟨rfl, by decide, ?_⟩, rfl, by decide, ?_⟩ <;> intro m <;> cases m <;> decide

theorem atOpcode_of {s : State} {m : Mnemonic} (h1 : s.status = .running) (h2 : s.pc < s.plen)
    (h3 : s.plen ≤ 256) (h4 : s.cell s.pc = opcode m) : AtOpcode s m := ⟨h1, h2, h3, h4⟩

theorem witness_OperandFetch :
    AtOpcode (at_ 253 256 [0xA2#8, 0x00#8, 0x07#8]) .mul ∧ 253 + operandCount .mul < 256 ∧
    AtOpcode (at_ 254 256 [0xA2#8, 0x00#8]) .mul ∧ 256 ≤ 254 + operandCount .mul ∧
    AtOpcode (at_ 255 256 [0x46#8]) .pop ∧ 256 ≤ 255 + operandCount .pop ∧
    AtOpcode (at_ 255 256 [0x01#8]) .hlt ∧ 255 + operandCount .hlt < 256 :=
  ⟨atOpcode_of rfl (by decide) (by decide) (by decide), by decide,
    atOpcode_of rfl (by decide) (by decide) (by decide), by decide,
    atOpcode_of rfl (by decide) (by decide) (by decide), by decide,
    atOpcode_of rfl (by decide) (by decide) (by decide), by decide⟩

/-- Another memory that agrees on the two bytes of a PRN at 0, and a step that reads them. -/
theorem witness_StepReadsOnlyItsInstruction :
    step (at_ 0 2 [0x47#8, 0x03#8]) =
      .next { at_ 0 2 [0x47#8, 0x03#8] with out := [0#8], pc := 2 } ∧
    readCell [(0, 0x47#8), (1, 0x03#8), (2, 0x99#8)] 0 = (at_ 0 2 [0x47#8, 0x03#8]).cell 0 ∧
    lookup opcode ((at_ 0 2 [0x47#8, 0x03#8]).cell 0) = some .prn ∧ operandCount .prn = 1 ∧
    readCell [(0, 0x47#8), (1, 0x03#8), (2, 0x99#8)] 1 = (at_ 0 2 [0x47#8, 0x03#8]).cell 1 :=
  ⟨rfl, by decide, by decide, rfl, by decide⟩

theorem witness_StepKeepsMemoryAndLength :
    step (at_ 0 1 [0x01#8]) = .next { at_ 0 1 [0x01#8] with status := .halted, pc := 1 } := rfl

theorem witness_OutputNeverReadBack :
    step (at_ 0 2 [0x47#8, 0x00#8]) =
      .next { at_ 0 2 [0x47#8, 0x00#8] with out := [0#8], pc := 2 } := rfl

/-- The boundary register 7 meets the hypotheses of LdiCompletes, PrnCompletes, MulCompletes and
PushCompletes. -/
theorem witness_LdiCompletes : (7#8 : Byte).toNat < 8 := by decide
theorem witness_PrnCompletes : (7#8 : Byte).toNat < 8 := by decide
theorem witness_MulCompletes : (7#8 : Byte).toNat < 8 ∧ (0#8 : Byte).toNat < 8 := by decide
theorem witness_PushCompletes : (7#8 : Byte).toNat < 8 := by decide
theorem witness_PopCompletes :
    (7#8 : Byte).toNat < 8 ∧ (withStack [5#8] (at_ 0 2 [])).stack = [] ++ [5#8] := by decide

theorem witness_WellFormedInstructionsComplete :
    WellFormed (.pop 7#8) ∧ (withStack [5#8] (at_ 0 2 [])).stack ≠ [] := by decide

theorem witness_HltStep : AtOpcode (at_ 255 256 [0x01#8]) .hlt :=
  atOpcode_of rfl (by decide) (by decide) (by decide)

/-- At 254; then at 253 with register 8 and with register 7. -/
theorem witness_LdiStep :
    (AtOpcode (at_ 254 256 [0x82#8, 0x00#8]) .ldi ∧ 256 ≤ 254 + 2) ∧
    (AtOpcode (at_ 253 256 [0x82#8, 0x08#8, 0x55#8]) .ldi ∧
      (at_ 253 256 [0x82#8, 0x08#8, 0x55#8]).cell 254 = 8#8 ∧ 8 ≤ (8#8 : Byte).toNat) ∧
    (AtOpcode (at_ 253 256 [0x82#8, 0x07#8, 0xFF#8]) .ldi ∧
      (at_ 253 256 [0x82#8, 0x07#8, 0xFF#8]).cell 254 = 7#8 ∧ (7#8 : Byte).toNat < 8 ∧
      (at_ 253 256 [0x82#8, 0x07#8, 0xFF#8]).cell 255 = 255#8) :=
  ⟨⟨atOpcode_of rfl (by decide) (by decide) (by decide), by decide⟩,
    ⟨atOpcode_of rfl (by decide) (by decide) (by decide), by decide, by decide⟩,
    ⟨atOpcode_of rfl (by decide) (by decide) (by decide), by decide, by decide, by decide⟩⟩

/-- At 255; then at 254 with register 8 and with register 7. -/
theorem witness_PrnStep :
    (AtOpcode (at_ 255 256 [0x47#8]) .prn ∧ 256 ≤ 255 + 1) ∧
    (AtOpcode (at_ 254 256 [0x47#8, 0x08#8]) .prn ∧
      (at_ 254 256 [0x47#8, 0x08#8]).cell 255 = 8#8 ∧ 8 ≤ (8#8 : Byte).toNat) ∧
    (AtOpcode (at_ 254 256 [0x47#8, 0x07#8]) .prn ∧
      (at_ 254 256 [0x47#8, 0x07#8]).cell 255 = 7#8 ∧ (7#8 : Byte).toNat < 8) :=
  ⟨⟨atOpcode_of rfl (by decide) (by decide) (by decide), by decide⟩,
    ⟨atOpcode_of rfl (by decide) (by decide) (by decide), by decide, by decide⟩,
    ⟨atOpcode_of rfl (by decide) (by decide) (by decide), by decide, by decide⟩⟩

/-- A MUL at 253 with the two operands given. -/
def mulAt (ra rb : Byte) : State := at_ 253 256 [0xA2#8, ra, rb]

/-- At 254; then at 253 with each of the four cases of the two indices. -/
theorem witness_MulStep :
    (AtOpcode (at_ 254 256 [0xA2#8, 0x00#8]) .mul ∧ 256 ≤ 254 + 2) ∧
    (AtOpcode (mulAt 8#8 7#8) .mul ∧ (mulAt 8#8 7#8).cell 254 = 8#8 ∧ (mulAt 8#8 7#8).cell 255 = 7#8) ∧
    (AtOpcode (mulAt 7#8 8#8) .mul ∧ (mulAt 7#8 8#8).cell 254 = 7#8 ∧ (mulAt 7#8 8#8).cell 255 = 8#8) ∧
    (AtOpcode (mulAt 9#8 8#8) .mul ∧ (mulAt 9#8 8#8).cell 254 = 9#8 ∧ (mulAt 9#8 8#8).cell 255 = 8#8) ∧
    (AtOpcode (mulAt 7#8 7#8) .mul ∧ (mulAt 7#8 7#8).cell 254 = 7#8 ∧ (mulAt 7#8 7#8).cell 255 = 7#8) :=
  ⟨⟨atOpcode_of rfl (by decide) (by decide) (by decide), by decide⟩,
    ⟨atOpcode_of rfl (by decide) (by decide) (by decide), by decide, by decide⟩,
    ⟨atOpcode_of rfl (by decide) (by decide) (by decide), by decide, by decide⟩,
    ⟨atOpcode_of rfl (by decide) (by decide) (by decide), by decide, by decide⟩,
    ⟨atOpcode_of rfl (by decide) (by decide) (by decide), by decide, by decide⟩⟩

/-- A one-operand instruction at 254, its opcode and operand given. -/
def oneAt (op r : Byte) : State := at_ 254 256 [op, r]

/-- At 255; then a bad index below the capacity, a full stack, both, and neither (V6 #10 and #11). -/
theorem witness_PushStep :
    (AtOpcode (at_ 255 256 [0x45#8]) .push ∧ 256 ≤ 255 + 1) ∧
    (AtOpcode (oneAt 0x45#8 8#8) .push ∧ (oneAt 0x45#8 8#8).cell 255 = 8#8 ∧
      (none : Option Nat) ≠ some (oneAt 0x45#8 8#8).sp) ∧
    (AtOpcode (withStack [7#8, 7#8, 7#8, 7#8] (oneAt 0x45#8 7#8)) .push ∧
      some 4 = some (withStack [7#8, 7#8, 7#8, 7#8] (oneAt 0x45#8 7#8)).sp) ∧
    (AtOpcode (withStack [7#8] (oneAt 0x45#8 8#8)) .push ∧
      some 1 = some (withStack [7#8] (oneAt 0x45#8 8#8)).sp) ∧
    (AtOpcode (withStack [7#8, 7#8, 7#8] (oneAt 0x45#8 7#8)) .push ∧
      some 4 ≠ some (withStack [7#8, 7#8, 7#8] (oneAt 0x45#8 7#8)).sp) :=
  ⟨⟨atOpcode_of rfl (by decide) (by decide) (by decide), by decide⟩,
    ⟨atOpcode_of rfl (by decide) (by decide) (by decide), by decide, by decide⟩,
    ⟨atOpcode_of rfl (by decide) (by decide) (by decide), by decide⟩,
    ⟨atOpcode_of rfl (by decide) (by decide) (by decide), by decide⟩,
    ⟨atOpcode_of rfl (by decide) (by decide) (by decide), by decide⟩⟩

/-- At 255 (V1 #15); then the four cases of stack and index (V6 #5, #7, #6 and #3). -/
theorem witness_PopStep :
    (AtOpcode (at_ 255 256 [0x46#8]) .pop ∧ 256 ≤ 255 + 1) ∧
    (AtOpcode (oneAt 0x46#8 7#8) .pop ∧ (oneAt 0x46#8 7#8).stack = [] ∧
      (oneAt 0x46#8 7#8).cell 255 = 7#8) ∧
    (AtOpcode (withStack [9#8] (oneAt 0x46#8 8#8)) .pop ∧
      (withStack [9#8] (oneAt 0x46#8 8#8)).stack ≠ [] ∧
      (withStack [9#8] (oneAt 0x46#8 8#8)).cell 255 = 8#8) ∧
    (AtOpcode (oneAt 0x46#8 8#8) .pop ∧ (oneAt 0x46#8 8#8).stack = [] ∧
      (oneAt 0x46#8 8#8).cell 255 = 8#8) ∧
    (AtOpcode (withStack [9#8] (oneAt 0x46#8 7#8)) .pop ∧
      (withStack [9#8] (oneAt 0x46#8 7#8)).stack = [] ++ [9#8] ∧
      (withStack [9#8] (oneAt 0x46#8 7#8)).cell 255 = 7#8) :=
  ⟨⟨atOpcode_of rfl (by decide) (by decide) (by decide), by decide⟩,
    ⟨atOpcode_of rfl (by decide) (by decide) (by decide), by decide, by decide⟩,
    ⟨atOpcode_of rfl (by decide) (by decide) (by decide), by decide, by decide⟩,
    ⟨atOpcode_of rfl (by decide) (by decide) (by decide), by decide, by decide⟩,
    ⟨atOpcode_of rfl (by decide) (by decide) (by decide), by decide, by decide⟩⟩

theorem witness_BadRegisterIndexFaults :
    8 ≤ (8#8 : Byte).toNat ∧ (7#8 : Byte).toNat < 8 ∧ (withStack [9#8] State.reset).stack ≠ [] := by
  decide

theorem witness_OrderOfTests : 8 ≤ (8#8 : Byte).toNat ∧ State.reset.stack = [] := by decide

theorem witness_AluKnowsOnlyMul : Mnemonic.push ≠ .mul := by decide

theorem witness_FaultsArePrecise :
    step (at_ 0 1 [0x00#8]) = .next (raise (.illegalInstruction 0#8 0) (at_ 0 1 [0x00#8])) ∧
    (raise (.illegalInstruction 0#8 0) (at_ 0 1 [0x00#8])).status = .faulted := ⟨rfl, rfl⟩

/-- A step that leaves each cause that can occur: V1 #10, V4 #4, V1 #8 and V6 #5. -/
theorem witness_CauseOfEachFault :
    step (at_ 254 256 [0x82#8]) = .next (raise (.outOfRange .memory 256) (at_ 254 256 [0x82#8])) ∧
    step (at_ 0 2 [0x47#8, 0x08#8]) =
      .next (raise (.outOfRange .register 8) (at_ 0 2 [0x47#8, 0x08#8])) ∧
    step (at_ 255 256 [0xEE#8]) =
      .next (raise (.illegalInstruction 0xEE#8 255) (at_ 255 256 [0xEE#8])) ∧
    step (at_ 0 2 [0x46#8]) = .next (raise (.stackUnderflow 0) (at_ 0 2 [0x46#8])) :=
  ⟨rfl, rfl, rfl, rfl⟩

theorem witness_ExecAllOrNothing :
    exec .hlt State.reset = .next { State.reset with status := .halted, pc := 1 } ∧
    exec (.pop 0#8) State.reset = .next (raise (.stackUnderflow 0) State.reset) := ⟨rfl, rfl⟩

theorem witness_AdvanceByWidth :
    exec .hlt (at_ 0 1 []) = .next { at_ 0 1 [] with status := .halted, pc := 1 } ∧
    exec (.pop 0#8) (at_ 0 1 []) = .next (raise (.stackUnderflow 0) (at_ 0 1 [])) := ⟨rfl, rfl⟩

theorem witness_LdiMulFrame :
    (∃ t, exec (.ldi 7#8 1#8) State.reset = .next t) ∧ (∃ t, exec (.mul 8#8 0#8) State.reset = .next t) :=
  ⟨⟨_, rfl⟩, ⟨_, rfl⟩⟩

theorem witness_HltPrnFrame :
    (∃ t, exec .hlt State.reset = .next t) ∧ (∃ t, exec (.prn 7#8) State.reset = .next t) ∧
    (∃ t, exec (.prn 8#8) State.reset = .next t) := ⟨⟨_, rfl⟩, ⟨_, rfl⟩, ⟨_, rfl⟩⟩

theorem witness_PushPopFrame :
    (∃ t, exec (.push 7#8) State.reset = .next t) ∧
    (∃ t, exec (.pop 7#8) (withStack [1#8] State.reset) = .next t) := ⟨⟨_, rfl⟩, ⟨_, rfl⟩⟩

/-- A step that leaves the stack, a PUSH and a POP. -/
theorem witness_OnlyPushAndPopMoveSp :
    (∃ t, step (at_ 0 1 [0x01#8]) = .next t) ∧
    (∃ t, step (at_ 0 2 [0x45#8, 0x07#8]) = .next t ∧ t.sp = 1) ∧
    (∃ t, step (withStack [1#8] (at_ 0 2 [0x46#8, 0x07#8])) = .next t ∧ t.sp = 0) :=
  ⟨⟨_, rfl⟩, ⟨_, rfl, rfl⟩, ⟨_, rfl, rfl⟩⟩

theorem witness_RegisterReadAndWrite : 7 < 8 ∧ 8 ≤ 8 := by decide
theorem witness_RegisterWriteThenRead : 7 < 8 ∧ 255 < 256 := by decide
theorem witness_MemoryRead : 255 < 256 ∧ 256 ≤ 256 := by decide
theorem witness_MemoryWriteThenRead : 255 < 256 ∧ Memory.wf State.reset.mem ∧ 256 ≤ 256 := by decide

theorem witness_PushPopRoundTrip :
    (3#8 : Byte).toNat < 8 ∧ 0x5A < 256 ∧ ∃ t, writeReg (3#8 : Byte).toNat 0x5A State.reset = .ok t :=
  ⟨by decide, by decide, _, rfl⟩

theorem witness_PushPopCopies : (7#8 : Byte).toNat < 8 ∧ (0#8 : Byte).toNat < 8 := by decide

theorem witness_LoadWritesTheImage :
    State.reset.status = .idle ∧ [0x01#8].length ≤ 256 ∧ 256 ≤ 256 ∧ Memory.wf State.reset.mem := by
  decide

theorem witness_LoadRefuses :
    (at_ 0 0 []).status ≠ .idle ∧ State.reset.status = .idle ∧
    256 < (List.replicate 257 0#8).length ∧ (List.replicate 256 0#8).length ≤ 256 ∧ 256 < 257 := by
  refine ⟨by decide, rfl, ?_, ?_, by decide⟩ <;> rw [List.length_replicate]
  decide

theorem witness_LaunchState : [0x01#8].length ≤ 256 ∧ 0 ≤ 256 := by decide

theorem witness_ExitStatusOfARun :
    (setStatus .halted State.reset).status = .halted ∧
    ((raise (.stackUnderflow 0) State.reset).status = .faulted ∧
      (raise (.stackUnderflow 0) State.reset).fault = some (.stackUnderflow 0)) ∧
    State.reset.status = .idle := ⟨rfl, ⟨rfl, rfl⟩, rfl⟩

theorem witness_SnapshotPresentsAbsentBytes :
    (at_ 255 256 []).pc + 0 < 256 ∧ 256 ≤ (at_ 255 256 []).pc + 1 ∧ 256 ≤ (at_ 256 256 []).pc + 0 := by
  decide

/-- The four ways: the halt test, HLT, a fault, and a step that stays RUNNING. -/
theorem witness_WaysARunEnds :
    (∃ t, step (at_ 256 256 []) = .next t ∧ t.status = .halted) ∧
    (∃ t, step (at_ 0 1 [0x01#8]) = .next t ∧ t.status = .halted) ∧
    (∃ t, step (at_ 0 1 [0x00#8]) = .next t ∧ t.status = .faulted) ∧
    (∃ t, step (at_ 0 3 [0x82#8]) = .next t ∧ t.status = .running) :=
  ⟨⟨_, rfl, rfl⟩, ⟨_, rfl, rfl⟩, ⟨_, rfl, rfl⟩, ⟨_, rfl, rfl⟩⟩

theorem witness_LaunchMeetsInvariant :
    ∃ t, launch [0x01#8] 256 Config.regReset Config.memFill = .next t := ⟨_, rfl⟩

theorem inv_of {s : State} (h1 : Memory.wf s.mem) (h2 : s.pc ≤ 256) (h3 : s.plen ≤ 256)
    (h4 : s.fault = none) (h5 : s.status ≠ .faulted) (h6 : 2 * s.sp ≤ s.pc) : Inv s :=
  ⟨h1, h2, h3, by simp [h4, h5], by simp [h4], h6⟩

/-- A running state with a full stack of the depth the invariant allows, about to push. -/
theorem witness_StepKeepsInvariant :
    Inv (withStack [1#8, 2#8] (at_ 4 6 [0x45#8, 0x00#8])) ∧
    ∃ t, step (withStack [1#8, 2#8] (at_ 4 6 [0x45#8, 0x00#8])) = .next t :=
  ⟨inv_of (by decide) (by decide) (by decide) rfl (by decide) (by decide), _, rfl⟩

theorem witness_EveryRunEnds :
    Inv (at_ 0 256 [0x45#8]) ∧ (at_ 0 256 [0x45#8]).status = .running :=
  ⟨inv_of (by decide) (by decide) (by decide) rfl (by decide) (by decide), rfl⟩

theorem witness_LargeStackIsUnbounded : 128 ≤ 128 ∧ Inv (at_ 0 256 [0x45#8]) :=
  ⟨by decide, inv_of (by decide) (by decide) (by decide) rfl (by decide) (by decide)⟩

end Sys2Proof.Tests
end

section
/-! The register primitives against rules R11 and R12 of 10_state.md. -/

namespace Sys2Proof.Machine

/-- The byte of a number depends only on its residue, so the model's `BitVec.ofNat 8 v` is the spec's
`v mod 256` (rule R12). -/
theorem byteOfNat_mod_256 (v : Nat) : BitVec.ofNat 8 (v % 256) = BitVec.ofNat 8 v :=
  BitVec.eq_of_toNat_eq (by simp only [BitVec.toNat_ofNat, Nat.reducePow, Nat.mod_mod])

/-- Rule R12 for a valid index, the whole next state written out: `v mod 256` goes to the register and
every other field is kept. -/
theorem writeReg_of_lt_mod_256 {i : Nat} (v : Nat) (s : State) (h : i < Config.nreg) :
    writeReg i v s = .ok { s with regs := s.regs.set i (BitVec.ofNat 8 (v % 256)) h } := by
  rw [writeReg_of_lt v s h, byteOfNat_mod_256]
  rfl

/-- Settles O43, by cases on the index: below 8 the read and the write succeed, from 8 on both fault. -/
theorem registerReadAndWrite : Obligations.RegisterReadAndWrite := by
  intro i v s
  constructor
  · intro h
    exact ⟨readReg_of_lt s h, writeReg_of_lt_mod_256 v s h⟩
  · intro h
    have hi : ¬ i < Config.nreg := Nat.not_lt.mpr h
    exact ⟨readReg_of_ge s hi, writeReg_of_ge v s hi⟩

end Sys2Proof.Machine
end

section
/-! The memory primitives against the rules of 20_memory.md. -/

namespace Sys2Proof.Machine

/-- Settles O45, by cases on the address: below 256 the read gives the cell, from 256 on it faults. -/
theorem memoryRead : Obligations.MemoryRead := by
  intro a s
  constructor
  · intro h
    exact memRead_of_lt s h
  · intro h
    exact memRead_of_ge s (Nat.not_lt.mpr h)

end Sys2Proof.Machine
end

section
/-! The decoder's verdict against rule R57 of 30_encoding.md. -/

namespace Sys2Proof.Machine

/-- Rule R56: an opcode byte without a descriptor row is rejected, whatever follows it. -/
theorem decodeBytes_of_lookup_none {opc : Mnemonic → Byte} {b : Byte} (rest : List Byte)
    (h : lookup opc b = none) : decodeBytes opc (b :: rest) = .error (.illegalOpcode b) := by
  simp only [decodeBytes, h]

theorem decodeBytes_of_lookup_some {opc : Mnemonic → Byte} {b : Byte} {m : Mnemonic}
    (rest : List Byte) (h : lookup opc b = some m) :
    decodeBytes opc (b :: rest) = decodeOperands m rest := by
  simp only [decodeBytes, h]

@[simp] theorem mnemonicOf_assemble (m : Mnemonic) (opa opb : Byte) :
    mnemonicOf (assemble m opa opb) = m := by
  cases m <;> rfl

/-- Operand bytes are taken as they stand: no value of them makes the operand decoder fail (rule R57). -/
theorem decodeOperands_two_bytes (m : Mnemonic) (a1 a2 : Byte) :
    ∃ opa opb rest, decodeOperands m [a1, a2] = .ok (assemble m opa opb, rest) := by
  cases m with
  | hlt => exact ⟨0#8, 0#8, [a1, a2], rfl⟩
  | prn | push | pop => exact ⟨a1, 0#8, [a2], rfl⟩
  | ldi | mul => exact ⟨a1, a2, [], rfl⟩

/-- Settles O5, by the two verdicts of the lookup: without a descriptor row the bytes are rejected, and
with one the operand decoder assembles an instruction of that mnemonic. -/
theorem verdictByOpcodeAlone : Obligations.VerdictByOpcodeAlone := by
  intro opc b a1 a2
  constructor
  · intro h
    exact decodeBytes_of_lookup_none [a1, a2] h
  · intro m h
    obtain ⟨opa, opb, rest, hops⟩ := decodeOperands_two_bytes m a1 a2
    have hdec : decodeBytes opc [b, a1, a2] = .ok (assemble m opa opb, rest) :=
      (decodeBytes_of_lookup_some [a1, a2] h).trans hops
    exact ⟨assemble m opa opb, rest, hdec, mnemonicOf_assemble m opa opb⟩

end Sys2Proof.Machine
end

section
/-! The execution cycle against rules R72 to R78 of 40_execution_cycle.md. -/

namespace Sys2Proof.Machine

/-! ### Operand fetch (rule R75) -/

theorem lookup_opcode (m : Mnemonic) : lookup opcode (opcode m) = some m := by
  cases m <;> decide

/-- At an opcode the fetch is the operand fetch of its mnemonic. -/
theorem AtOpcode.fetch_eq {s : State} {m : Mnemonic} (h : AtOpcode s m) :
    fetch opcode s = fetchOperands m s := by
  have hpc : s.pc < Config.memSize := Nat.lt_of_lt_of_le h.inImage h.fits
  exact fetch_of_legal hpc (by rw [h.byteAt, lookup_opcode])

/-- Settles O14, by cases on the last operand address: below 256 the operand fetch assembles the
instruction from the bytes after the opcode, from 256 on it raises `OutOfRange(memory, 256)`. -/
theorem operandFetch : Obligations.OperandFetch := by
  intro s m h
  have hpc : s.pc < Config.memSize := Nat.lt_of_lt_of_le h.inImage h.fits
  constructor
  · intro hfits
    exact cycle_of_fetched h.running h.inImage (h.fetch_eq.trans (fetchOperands_of_fits hfits))
  · intro hpast
    have hfault : fetch opcode s = .error (.outOfRange .memory 256) :=
      h.fetch_eq.trans (fetchOperands_of_past_end hpc (Nat.not_lt.mpr hpast))
    exact cycle_of_fetch_fault h.running h.inImage hfault

/-! ### The advance (rules R77 and R78) -/

/-- A handler that completes keeps the status, except HLT's, which sets it to HALTED (rule R90). -/
theorem handlerOf_ok_status {i : Instr} {s u : State} (h : handlerOf i s = .ok u) :
    (i = .hlt ∧ u.status = .halted) ∨ (i ≠ .hlt ∧ u.status = s.status) := by
  cases i with
  | hlt =>
    cases h
    exact .inl ⟨rfl, rfl⟩
  | ldi rd imm =>
    rcases ldi_cases rd imm s with ⟨_, hr⟩ | ⟨_, hr⟩ <;> cases hr.symm.trans h
    exact .inr ⟨nofun, rfl⟩
  | prn rs =>
    rcases prn_cases rs s with ⟨_, hr⟩ | ⟨_, hr⟩ <;> cases hr.symm.trans h
    exact .inr ⟨nofun, rfl⟩
  | mul ra rb =>
    rcases mul_cases ra rb s with ⟨_, _, hr⟩ | ⟨_, hr⟩ | ⟨_, _, hr⟩ <;> cases hr.symm.trans h
    exact .inr ⟨nofun, rfl⟩
  | push rs =>
    rcases push_cases Config.stackCapacity rs s with ⟨_, _, hr⟩ | ⟨_, hr⟩ | ⟨_, _, hr⟩ <;>
      cases hr.symm.trans h
    exact .inr ⟨nofun, rfl⟩
  | pop rd =>
    rcases pop_cases rd s with ⟨_, _, _, _, hr⟩ | ⟨_, hr⟩ | ⟨_, _, hr⟩ <;> cases hr.symm.trans h
    exact .inr ⟨nofun, rfl⟩

/-- From a RUNNING state a handler that completes does not leave the status FAULTED: only a raise sets
it (rule R126). -/
theorem handlerOf_ok_not_faulted {i : Instr} {s u : State} (hs : s.status = .running)
    (h : handlerOf i s = .ok u) : u.status ≠ .faulted := by
  rcases handlerOf_ok_status h with ⟨_, hu⟩ | ⟨_, hu⟩
  · simp [hu]
  · simp [hu, hs]

/-- Settles O38, by the two ends of an instruction: a completed handler is advanced and not FAULTED, a
raise is FAULTED and keeps `pc`. -/
theorem advanceByWidth : Obligations.AdvanceByWidth := by
  intro i s t hs h
  rw [exec_eq_complete] at h
  rcases complete_cases h with ⟨u, hu, rfl⟩ | ⟨f, _, rfl⟩
  · have hnot : u.status ≠ .faulted := handlerOf_ok_not_faulted hs hu
    rw [setPc_status, setPc_pc]
    exact ⟨fun _ => rfl, fun ht => absurd ht hnot⟩
  · exact ⟨fun ht => absurd (raise_status f s) ht, fun _ => raise_pc f s⟩

/-! ### The halt test (rule R72) -/

/-- Settles O12, by the halt test at the head of the cycle. -/
theorem haltTestHalts : Obligations.HaltTestHalts := by
  intro s hs hp
  exact (cycle_of_running hs).trans (runningCycle_of_past_image hp)

/-! ### Illegal opcodes (rules R74 and R122) -/

theorem lookup_eq_none_of_forall_ne {opc : Mnemonic → Byte} {b : Byte} (h : ∀ m, b ≠ opc m) :
    lookup opc b = none :=
  Option.eq_none_iff_forall_ne_some.mpr fun m hm => h m (eq_opc_of_lookup hm)

/-- A RUNNING cycle inside the image at a byte that is no opcode raises `IllegalInstruction`, whatever
the opcode map and the dispatch. -/
theorem cycle_of_illegal {opc : Mnemonic → Byte}
    {run : Instr → State → Host.Outcome State Fault Refusal} {s : State} (hs : s.status = .running)
    (hp : s.pc < s.plen) (hfits : s.plen ≤ 256) (hop : ∀ m, s.cell s.pc ≠ opc m) :
    cycle opc run s = .next (raise (.illegalInstruction (s.cell s.pc) s.pc) s) := by
  have hpc : s.pc < Config.memSize := Nat.lt_of_lt_of_le hp hfits
  exact cycle_of_fetch_fault hs hp (fetch_of_illegal hpc (lookup_eq_none_of_forall_ne hop))

/-- Settles O13: both clauses are the cycle at a byte that is no opcode, for the build's opcode map and
for the default one. -/
theorem illegalOpcodeFaults : Obligations.IllegalOpcodeFaults := by
  constructor
  · intro b s hs hp hfits hop
    exact cycle_of_illegal hs hp hfits hop
  · intro s hs hp hfits hop
    exact cycle_of_illegal hs hp hfits hop

end Sys2Proof.Machine
end

section
/-! HLT against rule R90 of 41_system_hlt.md. -/

namespace Sys2Proof.Machine

/-- Rule R90, from the handler, which never raises, and the advance by 1 (conflict C1). -/
theorem exec_hlt (s : State) :
    exec .hlt s = .next { s with status := .halted, pc := s.pc + 1 } := by
  rw [exec_eq_complete]
  exact complete_ok 0 s (setStatus .halted s)

/-- Settles O25: HLT has no operand byte, so at every address up to 255 its operand fetch fits and the
step runs HLT. -/
theorem hltStep : Obligations.HltStep := by
  intro s h
  have hfits : s.pc + operandCount .hlt < 256 := Nat.lt_of_lt_of_le h.inImage h.fits
  calc step s = exec .hlt s := (operandFetch s .hlt h).1 hfits
    _ = .next { s with status := .halted, pc := s.pc + 1 } := exec_hlt s

end Sys2Proof.Machine
end

section
/-! LDI and PRN against rules R95 and R96 of 42_data_ldi_prn.md. -/

namespace Sys2Proof.Machine

/-! ### The two ends of an instruction, read off its handler (rules R77, R78 and R126) -/

theorem exec_of_handlerOf_ok {i : Instr} {s t : State} (h : handlerOf i s = .ok t) :
    exec i s = .next (setPc (s.pc + 1 + operandCount (mnemonicOf i)) t) := by
  rw [exec_eq_complete, h, complete_ok]

theorem exec_of_handlerOf_error {i : Instr} {s : State} {f : FaultRecord}
    (h : handlerOf i s = .error f) : exec i s = .next (raise f s) := by
  rw [exec_eq_complete, h, complete_error]

/-! ### LDI (rule R95) -/

theorem exec_ldi_of_lt {rd : Byte} (imm : Byte) (s : State) (h : rd.toNat < 8) :
    exec (.ldi rd imm) s = .next { s with regs := s.regs.set rd.toNat imm h, pc := s.pc + 3 } := by
  rcases ldi_cases rd imm s with ⟨_, hok⟩ | ⟨hge, _⟩
  · exact exec_of_handlerOf_ok (i := .ldi rd imm) hok
  · exact absurd h (Nat.not_lt.mpr hge)

theorem exec_ldi_of_ge {rd : Byte} (imm : Byte) (s : State) (h : 8 ≤ rd.toNat) :
    exec (.ldi rd imm) s = .next (raise (.outOfRange .register rd.toNat) s) := by
  rcases ldi_cases rd imm s with ⟨hvalid, _⟩ | ⟨_, herr⟩
  · exact absurd hvalid (Nat.not_lt.mpr h)
  · exact exec_of_handlerOf_error herr

/-- Settles O26: the operand fetch faults where it runs past the end of the memory, and otherwise gives
the LDI whose two operands are the bytes after the opcode. -/
theorem ldiStep : Obligations.LdiStep := by
  intro s h
  obtain ⟨hfetched, hpast⟩ := operandFetch s .ldi h
  refine ⟨hpast, ?_⟩
  rintro hfits rd imm rfl rfl
  have hstep : step s = exec (.ldi (s.cell (s.pc + 1)) (s.cell (s.pc + 2))) s := hfetched hfits
  rw [hstep]
  exact ⟨exec_ldi_of_ge _ s, exec_ldi_of_lt _ s⟩

/-! ### PRN (rule R96) -/

theorem exec_prn_of_lt {rs : Byte} (s : State) (h : rs.toNat < 8) :
    exec (.prn rs) s = .next { s with out := s.out ++ [s.regs[rs.toNat]], pc := s.pc + 2 } := by
  rcases prn_cases rs s with ⟨_, hok⟩ | ⟨hge, _⟩
  · exact exec_of_handlerOf_ok (i := .prn rs) hok
  · exact absurd h (Nat.not_lt.mpr hge)

/-- Nothing is emitted: `raise` keeps OUT. -/
theorem exec_prn_of_ge {rs : Byte} (s : State) (h : 8 ≤ rs.toNat) :
    exec (.prn rs) s = .next (raise (.outOfRange .register rs.toNat) s) := by
  rcases prn_cases rs s with ⟨hvalid, _⟩ | ⟨_, herr⟩
  · exact absurd hvalid (Nat.not_lt.mpr h)
  · exact exec_of_handlerOf_error herr

/-- Settles O27: the operand fetch faults at 255, and otherwise gives the PRN whose operand is the byte
after the opcode. -/
theorem prnStep : Obligations.PrnStep := by
  intro s h
  obtain ⟨hfetched, hpast⟩ := operandFetch s .prn h
  refine ⟨hpast, ?_⟩
  rintro hfits rs rfl
  have hstep : step s = exec (.prn (s.cell (s.pc + 1))) s := hfetched hfits
  rw [hstep]
  exact ⟨exec_prn_of_ge s, exec_prn_of_lt s⟩

end Sys2Proof.Machine
end

section
/-! MUL against rule R101 of 43_alu_mul.md. -/

namespace Sys2Proof.Machine

/-- The advance is 3; the product reaches the register as `p mod 256` (rules R12 and R101). -/
theorem exec_mul_of_lt {ra rb : Byte} (s : State) (ha : ra.toNat < 8) (hb : rb.toNat < 8) :
    exec (.mul ra rb) s = .next { s with
      regs := s.regs.set ra.toNat
        (BitVec.ofNat 8 (s.regs[ra.toNat].toNat * s.regs[rb.toNat].toNat % 256)) ha
      pc := s.pc + 3 } := by
  rcases mul_cases ra rb s with ⟨_, _, hok⟩ | ⟨hge, _⟩ | ⟨_, hge, _⟩
  · rw [byteOfNat_mod_256]
    exact exec_of_handlerOf_ok (i := .mul ra rb) hok
  · exact absurd ha (Nat.not_lt.mpr hge)
  · exact absurd hb (Nat.not_lt.mpr hge)

/-- A bad first index is the one reported, whatever the second is (decision D11). -/
theorem exec_mul_of_first_ge {ra : Byte} (rb : Byte) (s : State) (ha : 8 ≤ ra.toNat) :
    exec (.mul ra rb) s = .next (raise (.outOfRange .register ra.toNat) s) := by
  rcases mul_cases ra rb s with ⟨hvalid, _, _⟩ | ⟨_, herr⟩ | ⟨hvalid, _, _⟩
  · exact absurd hvalid (Nat.not_lt.mpr ha)
  · exact exec_of_handlerOf_error herr
  · exact absurd hvalid (Nat.not_lt.mpr ha)

theorem exec_mul_of_second_ge {ra rb : Byte} (s : State) (ha : ra.toNat < 8) (hb : 8 ≤ rb.toNat) :
    exec (.mul ra rb) s = .next (raise (.outOfRange .register rb.toNat) s) := by
  rcases mul_cases ra rb s with ⟨_, hvalid, _⟩ | ⟨hge, _⟩ | ⟨_, _, herr⟩
  · exact absurd hvalid (Nat.not_lt.mpr hb)
  · exact absurd ha (Nat.not_lt.mpr hge)
  · exact exec_of_handlerOf_error herr

/-- Settles O28: the operand fetch faults at 254 and 255, and otherwise gives the MUL whose two operands
are the bytes after the opcode. With both indices bad it is the first that is reported. -/
theorem mulStep : Obligations.MulStep := by
  intro s h
  obtain ⟨hfetched, hpast⟩ := operandFetch s .mul h
  refine ⟨hpast, ?_⟩
  rintro hfits ra rb rfl rfl
  have hstep : step s = exec (.mul (s.cell (s.pc + 1)) (s.cell (s.pc + 2))) s := hfetched hfits
  rw [hstep]
  refine ⟨?_, exec_mul_of_second_ge s, ?_, exec_mul_of_lt s⟩
  · intro hra _
    exact exec_mul_of_first_ge _ s hra
  · intro hra _
    exact ⟨_, .inl rfl, exec_mul_of_first_ge _ s hra⟩

end Sys2Proof.Machine
end

section
/-! POP against rule R106 of 44_stack_push_pop.md. -/

namespace Sys2Proof.Machine

/-- An empty stack is the fault reported, whatever the index is (decision D11). -/
theorem exec_pop_of_empty (rd : Byte) {s : State} (hs : s.stack = []) :
    exec (.pop rd) s = .next (raise (.stackUnderflow s.pc) s) := by
  rcases pop_cases rd s with ⟨_, _, _, htop, _⟩ | ⟨_, herr⟩ | ⟨hne, _, _⟩
  · exact absurd hs (by simp [htop])
  · exact exec_of_handlerOf_error herr
  · exact absurd hs hne

/-- The entry is not consumed: `raise` keeps the stack. -/
theorem exec_pop_of_ge {rd : Byte} {s : State} (hs : s.stack ≠ []) (h : 8 ≤ rd.toNat) :
    exec (.pop rd) s = .next (raise (.outOfRange .register rd.toNat) s) := by
  rcases pop_cases rd s with ⟨hvalid, _⟩ | ⟨hempty, _⟩ | ⟨_, _, herr⟩
  · exact absurd hvalid (Nat.not_lt.mpr h)
  · exact absurd hempty hs
  · exact exec_of_handlerOf_error herr

/-- The handler's own split of the stack is the given one, for a stack has one top entry. -/
theorem exec_pop_of_top {rd : Byte} {s : State} (h : rd.toNat < 8) {older : List Byte} {v : Byte}
    (hs : s.stack = older ++ [v]) :
    exec (.pop rd) s = .next { s with
      regs := s.regs.set rd.toNat v h, stack := older, pc := s.pc + 2 } := by
  rcases pop_cases rd s with ⟨_, older', v', htop, hok⟩ | ⟨hempty, _⟩ | ⟨_, hge, _⟩
  · obtain ⟨rfl, rfl⟩ := List.append_singleton_inj.mp (htop.symm.trans hs)
    exact exec_of_handlerOf_ok (i := .pop rd) hok
  · exact absurd hempty (by simp [hs])
  · exact absurd h (Nat.not_lt.mpr hge)

/-- Settles O30: the operand fetch faults at 255, and otherwise gives the POP whose operand is the
byte after the opcode. With an empty stack and a bad index it is the empty stack that is reported. -/
theorem popStep : Obligations.PopStep := by
  intro s h
  obtain ⟨hfetched, hpast⟩ := operandFetch s .pop h
  refine ⟨hpast, ?_⟩
  rintro hfits rd rfl
  have hstep : step s = exec (.pop (s.cell (s.pc + 1))) s := hfetched hfits
  rw [hstep]
  refine ⟨?_, exec_pop_of_ge, ?_, ?_⟩
  · intro hempty _
    exact exec_pop_of_empty _ hempty
  · intro hempty _
    exact ⟨_, .inl rfl, exec_pop_of_empty _ hempty⟩
  · intro hrd older v htop
    exact exec_pop_of_top hrd htop

end Sys2Proof.Machine
end

section
/-! The load interface against rule R110 of 45_host_interfaces.md. -/

namespace Sys2Proof.Machine

/-- A load that none of the three refusals meets (rule R110, decisions D18 and D22) starts the engine. -/
theorem load_of_idle {image : List Byte} {entry : Nat} {s : State} (hs : s.status = .idle)
    (himage : image.length ≤ Config.memSize) (hentry : entry ≤ Config.memSize) :
    load image entry s = .next (loaded image entry s) := by
  rw [load, if_neg (not_not.mpr hs), if_neg (Nat.not_lt.mpr himage), if_neg (Nat.not_lt.mpr hentry)]

/-- The image is written from address 0, so a cell's address is its index in the image (rule R110(a)). -/
theorem loaded_cell_of_lt {image : List Byte} (entry : Nat) {s : State} (hm : Memory.wf s.mem)
    (himage : image.length ≤ Config.memSize) {a : Nat} (h : a < image.length) :
    (loaded image entry s).cell a = image[a] := by
  rw [State.cell, loaded_mem, readCell_writeCells image 0 hm (by omega) a, dif_pos (by omega)]
  rfl

theorem loaded_cell_of_ge {image : List Byte} (entry : Nat) {s : State} (hm : Memory.wf s.mem)
    (himage : image.length ≤ Config.memSize) {a : Nat} (h : image.length ≤ a) :
    (loaded image entry s).cell a = s.cell a := by
  rw [State.cell, loaded_mem, readCell_writeCells image 0 hm (by omega) a, dif_neg (by omega)]
  rfl

/-- Settles O49: the load is accepted, a cell inside the image holds its byte and one past it what it
held, and the load sets PLEN, `pc` and the status and no other field. -/
theorem loadWritesTheImage : Obligations.LoadWritesTheImage := by
  intro image entry s hs himage hentry hm
  refine ⟨loaded image entry s, load_of_idle hs himage hentry, ?_, ?_,
    loaded_plen .., loaded_pc .., loaded_status .., loaded_regs .., loaded_stack .., loaded_out ..,
    loaded_fault ..⟩
  · intro a h
    exact loaded_cell_of_lt entry hm himage h
  · intro a h
    exact loaded_cell_of_ge entry hm himage h

end Sys2Proof.Machine
end

section
/-! The lookup, the decoder and the encoder against 30_encoding.md. -/

namespace Sys2Proof.Machine

/-! ### The descriptor lookup (rules R56 and R59) -/

/-- The lookup walks the six rows in order, so at the opcode of `m` it stops at the first row with that
byte; under an injective map that is the row of `m`. -/
theorem lookup_of_injective {opc : Mnemonic → Byte} (hinj : Function.Injective opc) (m : Mnemonic) :
    lookup opc (opc m) = some m := by
  cases m <;> simp [lookup, hinj.eq_iff]

theorem lookup_eq_none_iff (opc : Mnemonic → Byte) (b : Byte) :
    lookup opc b = none ↔ ∀ m, b ≠ opc m := by
  constructor
  · rintro hnone m rfl
    cases m <;> simp [lookup, ite_eq_iff] at hnone
  · exact lookup_eq_none_of_forall_ne

/-- Settles O3: a lookup that finds a mnemonic was given its opcode byte, and conversely under an
injective map; it finds none exactly at the bytes that are no opcode. -/
theorem lookupFindsOwnOpcode : Obligations.LookupFindsOwnOpcode := by
  refine ⟨fun opc hinj b m => ⟨eq_opc_of_lookup, ?_⟩, lookup_eq_none_iff⟩
  rintro rfl
  exact lookup_of_injective hinj m

theorem opcode_injective : Function.Injective opcode := by
  intro m n h
  have hlookup : some m = some n := by rw [← lookup_opcode m, h, lookup_opcode]
  exact Option.some.inj hlookup

/-- The six default opcode values of rule R54. -/
theorem forall_ne_opcode_iff (b : Byte) :
    (∀ m, b ≠ opcode m) ↔ b ∉ [0x01#8, 0x45#8, 0x46#8, 0x47#8, 0x82#8, 0xA2#8] := by
  constructor
  · intro h hb
    simp only [List.mem_cons, List.not_mem_nil, or_false] at hb
    rcases hb with hb | hb | hb | hb | hb | hb
    · exact h .hlt hb
    · exact h .push hb
    · exact h .pop hb
    · exact h .prn hb
    · exact h .ldi hb
    · exact h .mul hb
  · rintro h m rfl
    cases m <;> exact h (by decide)

/-- Settles O4: the illegal bytes are those that are no opcode, and 0x00 is one. -/
theorem defaultIllegalBytes : Obligations.DefaultIllegalBytes := by
  have hillegal (b : Byte) :
      lookup opcode b = none ↔ b ∉ [0x01#8, 0x45#8, 0x46#8, 0x47#8, 0x82#8, 0xA2#8] :=
    (lookup_eq_none_iff opcode b).trans (forall_ne_opcode_iff b)
  exact ⟨hillegal, (hillegal 0x00#8).mpr (by decide), opcode_injective⟩

/-! ### Decoding and encoding (rules R50, R51 and R58) -/

/-- The operand decoder takes back exactly the operand bytes of an instruction. -/
theorem decodeOperands_operandBytes (i : Instr) (rest : List Byte) :
    decodeOperands (mnemonicOf i) (operandBytes i ++ rest) = .ok (i, rest) := by
  cases i <;> rfl

/-- What the operand decoder reads is an instruction of the given mnemonic, and the bytes it took are
that instruction's operand bytes. -/
theorem decodeOperands_ok {m : Mnemonic} {bytes rest : List Byte} {i : Instr}
    (h : decodeOperands m bytes = .ok (i, rest)) :
    mnemonicOf i = m ∧ bytes = operandBytes i ++ rest := by
  cases m with
  | hlt => cases h; exact ⟨rfl, rfl⟩
  | prn | push | pop =>
    match bytes with
    | [] => cases h
    | _ :: _ => cases h; exact ⟨rfl, rfl⟩
  | ldi | mul =>
    match bytes with
    | [] | [_] => cases h
    | _ :: _ :: _ => cases h; exact ⟨rfl, rfl⟩

/-- Settles O1: the lookup finds the mnemonic of the opcode byte, and the operand decoder takes back the
operand bytes. -/
theorem decodeOfEncode : Obligations.DecodeOfEncode := by
  intro opc hinj i rest
  calc decodeBytes opc (encodeWith opc i ++ rest)
      = decodeOperands (mnemonicOf i) (operandBytes i ++ rest) :=
        decodeBytes_of_lookup_some _ (lookup_of_injective hinj (mnemonicOf i))
    _ = .ok (i, rest) := decodeOperands_operandBytes i rest

/-- Settles O2, by the head byte: without one, or with an illegal one, nothing decodes; a legal one is
the opcode of the decoded instruction, and the rest its operand bytes. -/
theorem encodeOfDecode : Obligations.EncodeOfDecode := by
  intro opc bytes rest i h
  cases bytes with
  | nil => cases h
  | cons b tail =>
    cases hm : lookup opc b with
    | none => cases (decodeBytes_of_lookup_none tail hm).symm.trans h
    | some m =>
      rw [decodeBytes_of_lookup_some tail hm] at h
      obtain ⟨rfl, rfl⟩ := decodeOperands_ok h
      rw [eq_opc_of_lookup hm]
      rfl

theorem decode_encode (i : Instr) : decode (encode i) = .ok (i, []) := by
  simpa [decode, encode] using decodeOfEncode opcode opcode_injective i []

/-- Settles O6: each word is the encoding of its instruction with the default opcode values. -/
theorem specWordsDecode : Obligations.SpecWordsDecode :=
  ⟨decode_encode .hlt, decode_encode (.ldi 0x00#8 0x08#8), decode_encode (.prn 0x00#8),
    decode_encode (.mul 0x00#8 0x01#8), decode_encode (.push 0x02#8), decode_encode (.pop 0xFF#8)⟩

end Sys2Proof.Machine
end

section
/-! PUSH against 44_stack_push_pop.md, on a stack of any capacity. -/

namespace Sys2Proof.Machine

/-- A RUNNING cycle at an opcode whose operand bytes lie inside the memory dispatches the instruction
they give, whatever the dispatch (rule R75). -/
theorem AtOpcode.cycle_of_fits {run : Instr → State → Host.Outcome State Fault Refusal} {s : State}
    {m : Mnemonic} (h : AtOpcode s m) (hfits : s.pc + operandCount m < Config.memSize) :
    cycle opcode run s = run (assemble m (s.cell (s.pc + 1)) (s.cell (s.pc + 2))) s :=
  cycle_of_fetched h.running h.inImage (h.fetch_eq.trans (fetchOperands_of_fits hfits))

theorem AtOpcode.cycle_of_past_end {run : Instr → State → Host.Outcome State Fault Refusal} {s : State}
    {m : Mnemonic} (h : AtOpcode s m) (hpast : 256 ≤ s.pc + operandCount m) :
    cycle opcode run s = .next (raise (.outOfRange .memory 256) s) := by
  have hpc : s.pc < Config.memSize := Nat.lt_of_lt_of_le h.inImage h.fits
  exact cycle_of_fetch_fault h.running h.inImage
    (h.fetch_eq.trans (fetchOperands_of_past_end hpc (Nat.not_lt.mpr hpast)))

theorem execPushWith_of_lt {cap : Option Nat} {rs : Byte} {s : State} (h : rs.toNat < 8)
    (hroom : cap ≠ some s.sp) :
    execPushWith cap rs s =
      .next { s with stack := s.stack ++ [s.regs[rs.toNat]], pc := s.pc + 2 } := by
  rcases push_cases cap rs s with ⟨_, _, hok⟩ | ⟨hge, _⟩ | ⟨_, hfull, _⟩
  · rw [execPushWith, hok, complete_ok]
    rfl
  · exact absurd h (Nat.not_lt.mpr hge)
  · exact absurd hfull hroom

/-- A bad index is the fault reported, whatever the capacity and the stack (decision D11). -/
theorem execPushWith_of_ge {rs : Byte} (cap : Option Nat) (s : State) (h : 8 ≤ rs.toNat) :
    execPushWith cap rs s = .next (raise (.outOfRange .register rs.toNat) s) := by
  rcases push_cases cap rs s with ⟨hvalid, _⟩ | ⟨_, herr⟩ | ⟨hvalid, _⟩
  · exact absurd hvalid (Nat.not_lt.mpr h)
  · rw [execPushWith, herr, complete_error]
  · exact absurd hvalid (Nat.not_lt.mpr h)

theorem execPushWith_of_full {cap : Option Nat} {rs : Byte} {s : State} (h : rs.toNat < 8)
    (hfull : cap = some s.sp) :
    execPushWith cap rs s = .next (raise (.stackOverflow s.pc) s) := by
  rcases push_cases cap rs s with ⟨_, hroom, _⟩ | ⟨hge, _⟩ | ⟨_, _, herr⟩
  · exact absurd hfull hroom
  · exact absurd h (Nat.not_lt.mpr hge)
  · rw [execPushWith, herr, complete_error]

/-- The unbounded stack always has room (decision D5). -/
theorem exec_push_of_lt {rs : Byte} (s : State) (h : rs.toNat < 8) :
    exec (.push rs) s = .next { s with stack := s.stack ++ [s.regs[rs.toNat]], pc := s.pc + 2 } :=
  execPushWith_of_lt h (nofun : Config.stackCapacity ≠ some s.sp)

/-- Settles O29: the operand fetch faults at 255, and otherwise gives the PUSH whose operand is the byte
after the opcode. With a bad index and a full stack it is the index that is reported. -/
theorem pushStep : Obligations.PushStep := by
  intro cap s h
  refine ⟨h.cycle_of_past_end, ?_⟩
  rintro hfits rs rfl
  have hstep : stepFor ⟨opcode, cap⟩ s = execPushWith cap (s.cell (s.pc + 1)) s := h.cycle_of_fits hfits
  rw [hstep]
  refine ⟨?_, execPushWith_of_full, ?_, execPushWith_of_lt⟩
  · intro hrs _
    exact execPushWith_of_ge cap s hrs
  · intro hrs _
    exact ⟨_, .inr rfl, execPushWith_of_ge cap s hrs⟩

end Sys2Proof.Machine
end

section
/-! What the instructions do where they complete and where they raise, read off the six rules. -/

namespace Sys2Proof.Machine

/-- Settles O18: the rule of HLT. -/
theorem hltCompletes : Obligations.HltCompletes := exec_hlt

/-- Settles O19: the rule of LDI for a valid index. -/
theorem ldiCompletes : Obligations.LdiCompletes := fun _ imm s h => exec_ldi_of_lt imm s h

/-- Settles O20: the rule of PRN for a valid index. -/
theorem prnCompletes : Obligations.PrnCompletes := fun _ s h => exec_prn_of_lt s h

/-- Settles O21: the rule of MUL for two valid indices. -/
theorem mulCompletes : Obligations.MulCompletes := fun _ _ s ha hb => exec_mul_of_lt s ha hb

/-- Settles O22: the rule of PUSH for a valid index on the unbounded stack. -/
theorem pushCompletes : Obligations.PushCompletes := fun _ s h => exec_push_of_lt s h

/-- Settles O23: the rule of POP for a valid index and a non-empty stack. -/
theorem popCompletes : Obligations.PopCompletes := fun _ _ _ _ h htop => exec_pop_of_top h htop

/-- Settles O31, by the rule of each instruction for a bad index. -/
theorem badRegisterIndexFaults : Obligations.BadRegisterIndexFaults := by
  intro r hr
  refine ⟨?_, ?_, ?_, ?_, ?_⟩
  · intro imm s
    exact exec_ldi_of_ge imm s hr
  · intro s
    exact exec_prn_of_ge s hr
  · intro s
    exact execPushWith_of_ge Config.stackCapacity s hr
  · intro ra s hra
    exact exec_mul_of_second_ge s hra hr
  · intro s hs
    exact exec_pop_of_ge hs hr

/-- Settles O32: the test that decision D11 puts first decides, whatever the other one says. -/
theorem orderOfTests : Obligations.OrderOfTests := by
  refine ⟨?_, ?_, ?_⟩
  · intro ra rb s hra
    exact exec_mul_of_first_ge rb s hra
  · intro rd s hs
    exact exec_pop_of_empty rd hs
  · intro cap rs s hrs
    exact execPushWith_of_ge cap s hrs

/-- Settles O33: MUL has the dispatcher's one row, every other mnemonic the last one. -/
theorem aluKnowsOnlyMul : Obligations.AluKnowsOnlyMul := by
  refine ⟨fun _ _ _ _ => rfl, ?_⟩
  intro m op opa opb s hm
  cases m with
  | mul => exact absurd rfl hm
  | hlt | ldi | prn | push | pop => rfl

/-- Settles O34: fault entry, field by field. -/
theorem raiseChangesOnlyTheRecord : Obligations.RaiseChangesOnlyTheRecord := fun f s =>
  ⟨raise_status f s, raise_fault f s, raise_regs f s, raise_pc f s, raise_cell f s, raise_stack f s,
    raise_sp f s, raise_plen f s, raise_out f s⟩

/-- Settles O48: the PUSH leaves the old value of the first register on top of the old stack, and the POP
takes it from there. -/
theorem pushPopCopies : Obligations.PushPopCopies := by
  intro r q s hr hq
  exact ⟨_, exec_push_of_lt s hr, exec_pop_of_top hq rfl⟩

/-- Settles O44: the written register holds the value, and a read of another index, valid or not, is as
before. -/
theorem registerWriteThenRead : Obligations.RegisterWriteThenRead := by
  intro r v s hr _
  refine ⟨_, writeReg_of_lt v s hr, ?_, ?_⟩
  · rw [readReg_of_lt _ hr, setReg_same]
  · intro q hne
    by_cases hq : q < Config.nreg
    · rw [readReg_of_lt _ hq, readReg_of_lt s hq, setReg_other hr hq _ s hne]
    · rw [readReg_of_ge _ hq, readReg_of_ge s hq]

/-- Settles O47: the PUSH puts the written value on top, where the write of 0 does not reach it, and the
POP writes it back. -/
theorem pushPopRoundTrip : Obligations.PushPopRoundTrip := by
  intro r v s s1 hr _ hs1
  obtain ⟨_, rfl⟩ := writeReg_ok hs1
  refine ⟨_, _, _, exec_push_of_lt _ hr, writeReg_of_lt 0 _ hr, exec_pop_of_top hr rfl, ?_, rfl⟩
  rw [readReg_of_lt _ hr]
  simp

end Sys2Proof.Machine
end

section
/-! Memory writes, reset, load, launch and readback against 20_memory.md, 10_state.md and
45_host_interfaces.md. -/

namespace Sys2Proof.Machine

/-- Settles O46, by cases on the address: below 256 the write is the canonical write of the cell, from
256 on it faults. -/
theorem memoryWriteThenRead : Obligations.MemoryWriteThenRead := by
  intro a v s
  constructor
  · intro ha hm
    have hread (b : Nat) : readCell (writeCell s.mem a v) b = if b = a then v else s.cell b :=
      readCell_writeCell s.mem a v b hm.1
    exact ⟨writeCell s.mem a v, if_pos ha, writeCell_wf v hm ha, (hread a).trans (if_pos rfl),
      fun b hb => (hread b).trans (if_neg hb)⟩
  · intro ha
    exact if_neg (Nat.not_lt.mpr ha)

/-! ### Reset (rule R28) -/

/-- Settles O52, field by field. -/
theorem resetState : Obligations.ResetState :=
  ⟨fun _ h => Vector.getElem_replicate h, fun _ => rfl, rfl, rfl, rfl, rfl, rfl, rfl, rfl⟩

/-- A state that has not FAULTED, has no fault record and has an empty stack meets the invariant. -/
theorem inv_of_empty_stack {s : State} (hmem : Memory.wf s.mem) (hpc : s.pc ≤ 256)
    (hplen : s.plen ≤ 256) (hstatus : s.status ≠ .faulted) (hfault : s.fault = none)
    (hstack : s.stack = []) : Inv s where
  memWf := hmem
  pcRange := hpc
  plenRange := hplen
  record := by simp [hfault, hstatus]
  cause := by simp [hfault]
  depth := by simp [State.sp, hstack]

/-- Settles O56: reset leaves an empty memory and an empty stack. -/
theorem resetMeetsInvariant : Obligations.ResetMeetsInvariant :=
  inv_of_empty_stack reset_mem_wf (by decide) (by decide) nofun rfl rfl

/-! ### Load and launch (rules R110 and R111) -/

theorem load_of_not_idle {s : State} (image : List Byte) (entry : Nat) (hs : s.status ≠ .idle) :
    load image entry s = .refused .loadOutsideIdle := if_pos hs

theorem load_of_long_image {image : List Byte} {s : State} (entry : Nat) (hs : s.status = .idle)
    (himage : Config.memSize < image.length) :
    load image entry s = .refused (.imageTooLong image.length) := by
  rw [load, if_neg (not_not.mpr hs), if_pos himage]

theorem load_of_far_entry {image : List Byte} {entry : Nat} {s : State} (hs : s.status = .idle)
    (himage : image.length ≤ Config.memSize) (hentry : Config.memSize < entry) :
    load image entry s = .refused (.entryOutOfRange entry) := by
  rw [load, if_neg (not_not.mpr hs), if_neg (Nat.not_lt.mpr himage), if_pos hentry]

/-- Settles O50: the three refusals, in the order of their tests. -/
theorem loadRefuses : Obligations.LoadRefuses := fun image entry _ =>
  ⟨load_of_not_idle image entry, load_of_long_image entry, load_of_far_entry⟩

/-- Everything a load can do that starts the engine. -/
theorem load_next {image : List Byte} {entry : Nat} {s t : State} (h : load image entry s = .next t) :
    s.status = .idle ∧ image.length ≤ Config.memSize ∧ entry ≤ Config.memSize ∧
      t = loaded image entry s := by
  by_cases hs : s.status = .idle
  · rcases Nat.lt_or_ge Config.memSize image.length with himage | himage
    · cases (load_of_long_image entry hs himage).symm.trans h
    · rcases Nat.lt_or_ge Config.memSize entry with hentry | hentry
      · cases (load_of_far_entry hs himage hentry).symm.trans h
      · cases (load_of_idle hs himage hentry).symm.trans h
        exact ⟨hs, himage, hentry, rfl⟩
  · cases (load_of_not_idle image entry hs).symm.trans h

/-- Settles O51: the launch is the load after a reset with the given registers and fill. -/
theorem launchState : Obligations.LaunchState := by
  intro image entry regReset fill himage hentry
  have hm : Memory.wf (resetWith regReset fill).mem := filledMemory_wf fill
  refine ⟨loaded image entry (resetWith regReset fill), load_of_idle rfl himage hentry, rfl, ?_, ?_,
    rfl, rfl, rfl, rfl, rfl, rfl, rfl⟩
  · intro a h
    exact loaded_cell_of_lt entry hm himage h
  · intro a h ha
    rw [loaded_cell_of_ge entry hm himage h]
    exact readCell_filledMemory fill ha

/-- Settles O57: the launch writes the image into a filled memory and leaves the stack empty. -/
theorem launchMeetsInvariant : Obligations.LaunchMeetsInvariant := by
  intro image entry regReset fill t h
  obtain ⟨_, himage, hentry, rfl⟩ := load_next h
  have hm : Memory.wf (writeCells image 0 (filledMemory fill)) :=
    writeCells_wf image 0 (filledMemory_wf fill) (by omega)
  exact inv_of_empty_stack hm hentry himage nofun rfl rfl

/-! ### Exit status and trace (rules R114, R115 and R120) -/

theorem FaultRecord.code_ne_zero (f : FaultRecord) : f.code ≠ 0 := by
  cases f <;> exact Nat.succ_ne_zero _

/-- Settles O53, by the status; the codes are those of rule R120. -/
theorem exitStatusOfARun : Obligations.ExitStatusOfARun := by
  refine ⟨?_, ?_, ?_, fun _ _ => rfl, fun _ _ => rfl, fun _ => rfl, fun _ => rfl, fun _ => rfl⟩
  · intro s hs
    simp only [exitStatus, hs]
  · intro s f hs hf
    exact ⟨by simp only [exitStatus, hs, hf, Option.map_some], f.code_ne_zero⟩
  · rintro s (hs | hs) <;> simp only [exitStatus, hs]

theorem snapshot_bytes_getElem? (s : State) {k : Nat} (hk : k < 3) :
    (snapshot s).bytes[k]? =
      some (if s.pc + k < Config.memSize then some (s.cell (s.pc + k)) else none) := by
  simp only [snapshot, List.getElem?_map, List.getElem?_range hk, Option.map_some]

/-- Settles O54, by cases on the address of each of the three bytes. -/
theorem snapshotPresentsAbsentBytes : Obligations.SnapshotPresentsAbsentBytes := by
  intro s
  refine ⟨rfl, rfl, rfl, fun k hk => ⟨?_, ?_⟩⟩
  · intro ha
    rw [snapshot_bytes_getElem? s hk, if_pos ha]
  · intro ha
    rw [snapshot_bytes_getElem? s hk, if_neg (Nat.not_lt.mpr ha)]

end Sys2Proof.Machine
end

section
/-! What a step can do, once: the inversion of the fetch, of the handlers and of the step. The
statements about every step are read off these. -/

namespace Sys2Proof.Machine

/-! ### The fetch (rules R73 to R75) -/

/-- A fetched instruction has its opcode at `pc` and its last operand inside the memory. -/
theorem fetch_ok {opc : Mnemonic → Byte} {s : State} {i : Instr} (h : fetch opc s = .ok i) :
    s.cell s.pc = opc (mnemonicOf i) ∧ s.pc + operandCount (mnemonicOf i) < Config.memSize := by
  by_cases hpc : s.pc < Config.memSize
  · cases hm : lookup opc (s.cell s.pc) with
    | none => cases (fetch_of_illegal hpc hm).symm.trans h
    | some m =>
      rw [fetch_of_legal hpc hm] at h
      by_cases hfits : s.pc + operandCount m < Config.memSize
      · cases (fetchOperands_of_fits hfits).symm.trans h
        rw [mnemonicOf_assemble]
        exact ⟨eq_opc_of_lookup hm, hfits⟩
      · cases (fetchOperands_of_past_end hpc hfits).symm.trans h
  · simp [fetch, memRead_of_ge s hpc] at h

/-- A fetch inside the memory faults for one of two reasons: the byte is no opcode, or an operand lies
past the end of the memory. -/
theorem fetch_error {opc : Mnemonic → Byte} {s : State} {f : FaultRecord}
    (hpc : s.pc < Config.memSize) (h : fetch opc s = .error f) :
    (f = .illegalInstruction (s.cell s.pc) s.pc ∧ ∀ m, s.cell s.pc ≠ opc m) ∨
    (f = .outOfRange .memory 256 ∧ ∃ m, s.cell s.pc = opc m ∧ 256 ≤ s.pc + operandCount m) := by
  cases hm : lookup opc (s.cell s.pc) with
  | none =>
    cases (fetch_of_illegal hpc hm).symm.trans h
    exact .inl ⟨rfl, (lookup_eq_none_iff opc _).mp hm⟩
  | some m =>
    rw [fetch_of_legal hpc hm] at h
    by_cases hfits : s.pc + operandCount m < Config.memSize
    · cases (fetchOperands_of_fits hfits).symm.trans h
    · cases (fetchOperands_of_past_end hpc hfits).symm.trans h
      exact .inr ⟨rfl, m, eq_opc_of_lookup hm, Nat.not_lt.mp hfits⟩

/-! ### The handlers (rules R77 and R78) -/

/-- What a completed handler has done to the state, before the advance; `handlerOf_ok` ties it to the
model. The value that PRN emits, MUL writes or PUSH pushes is left open: no frame and no invariant looks
at it, and the rule of each instruction states it. -/
inductive Effect (s : State) : Instr → State → Prop where
  | hlt : Effect s .hlt (setStatus .halted s)
  | ldi (rd imm : Byte) (h : rd.toNat < 8) : Effect s (.ldi rd imm) (setReg rd.toNat h imm s)
  | prn (rs v : Byte) : Effect s (.prn rs) (emit v s)
  | mul (ra rb v : Byte) (h : ra.toNat < 8) : Effect s (.mul ra rb) (setReg ra.toNat h v s)
  | push (rs v : Byte) : Effect s (.push rs) (setStack (s.stack ++ [v]) s)
  | pop (rd v : Byte) (older : List Byte) (h : rd.toNat < 8) (htop : s.stack = older ++ [v]) :
      Effect s (.pop rd) (setReg rd.toNat h v (setStack older s))

theorem handlerOf_ok {i : Instr} {s u : State} (h : handlerOf i s = .ok u) : Effect s i u := by
  cases i with
  | hlt =>
    cases h
    exact .hlt
  | ldi rd imm =>
    rcases ldi_cases rd imm s with ⟨hrd, hr⟩ | ⟨_, hr⟩ <;> cases hr.symm.trans h
    exact .ldi rd imm hrd
  | prn rs =>
    rcases prn_cases rs s with ⟨_, hr⟩ | ⟨_, hr⟩ <;> cases hr.symm.trans h
    exact .prn rs _
  | mul ra rb =>
    rcases mul_cases ra rb s with ⟨hra, _, hr⟩ | ⟨_, hr⟩ | ⟨_, _, hr⟩ <;> cases hr.symm.trans h
    exact .mul ra rb _ hra
  | push rs =>
    rcases push_cases Config.stackCapacity rs s with ⟨_, _, hr⟩ | ⟨_, hr⟩ | ⟨_, _, hr⟩ <;>
      cases hr.symm.trans h
    exact .push rs _
  | pop rd =>
    rcases pop_cases rd s with ⟨hrd, older, v, htop, hr⟩ | ⟨_, hr⟩ | ⟨_, _, hr⟩ <;>
      cases hr.symm.trans h
    exact .pop rd v older hrd htop

/-- A handler raises for one of two reasons: a register operand names no register, or a POP finds the
stack empty. -/
theorem handlerOf_error {i : Instr} {s : State} {f : FaultRecord} (h : handlerOf i s = .error f) :
    (∃ r ∈ regOperands i, 8 ≤ r.toNat ∧ f = .outOfRange .register r.toNat) ∨
    (∃ rd, i = .pop rd ∧ s.stack = [] ∧ f = .stackUnderflow s.pc) := by
  cases i with
  | hlt => cases h
  | ldi rd imm =>
    rcases ldi_cases rd imm s with ⟨_, hr⟩ | ⟨hrd, hr⟩ <;> cases hr.symm.trans h
    exact .inl ⟨rd, List.mem_singleton_self rd, hrd, rfl⟩
  | prn rs =>
    rcases prn_cases rs s with ⟨_, hr⟩ | ⟨hrs, hr⟩ <;> cases hr.symm.trans h
    exact .inl ⟨rs, List.mem_singleton_self rs, hrs, rfl⟩
  | mul ra rb =>
    rcases mul_cases ra rb s with ⟨_, _, hr⟩ | ⟨hra, hr⟩ | ⟨_, hrb, hr⟩ <;> cases hr.symm.trans h
    · exact .inl ⟨ra, List.mem_cons_self, hra, rfl⟩
    · exact .inl ⟨rb, List.mem_cons_of_mem ra (List.mem_singleton_self rb), hrb, rfl⟩
  | push rs =>
    rcases push_cases Config.stackCapacity rs s with ⟨_, _, hr⟩ | ⟨hrs, hr⟩ | ⟨_, hfull, _⟩
    · cases hr.symm.trans h
    · cases hr.symm.trans h
      exact .inl ⟨rs, List.mem_singleton_self rs, hrs, rfl⟩
    · cases hfull
  | pop rd =>
    rcases pop_cases rd s with ⟨_, _, _, _, hr⟩ | ⟨hempty, hr⟩ | ⟨_, hrd, hr⟩ <;>
      cases hr.symm.trans h
    · exact .inr ⟨rd, rfl, hempty, rfl⟩
    · exact .inl ⟨rd, List.mem_singleton_self rd, hrd, rfl⟩

theorem Effect.frame {i : Instr} {s u : State} (h : Effect s i u) :
    u.mem = s.mem ∧ u.plen = s.plen ∧ u.fault = s.fault := by
  cases h <;> exact ⟨rfl, rfl, rfl⟩

theorem Effect.status {i : Instr} {s u : State} (h : Effect s i u) :
    (i ≠ .hlt ∧ u.status = s.status) ∨ (i = .hlt ∧ u.status = .halted) := by
  cases h with
  | hlt => exact .inr ⟨rfl, rfl⟩
  | ldi | prn | mul | push | pop => exact .inl ⟨nofun, rfl⟩

/-! ### The execution of an instruction -/

/-- Everything `exec` can do: a completed handler and the advance by the width, or the fault entry. -/
theorem exec_cases {i : Instr} {s t : State} (h : exec i s = .next t) :
    (∃ u, Effect s i u ∧ t = setPc (s.pc + width i) u) ∨
    (∃ f, handlerOf i s = .error f ∧ t = raise f s) := by
  rw [exec_eq_complete] at h
  rcases complete_cases h with ⟨u, hu, rfl⟩ | ⟨f, hf, rfl⟩
  · exact .inl ⟨u, handlerOf_ok hu, by rw [width, Nat.add_assoc]⟩
  · exact .inr ⟨f, hf, rfl⟩

theorem exec_next (i : Instr) (s : State) : ∃ t, exec i s = .next t := by
  rw [exec_eq_complete]
  cases handlerOf i s with
  | ok u => exact ⟨_, complete_ok _ s u⟩
  | error f => exact ⟨_, complete_error _ s f⟩

theorem validReg_of_mem_regOperands {i : Instr} (h : WellFormed i) {r : Byte}
    (hr : r ∈ regOperands i) : validReg r := by
  cases i with
  | hlt => cases hr
  | ldi rd _ | prn rd | push rd | pop rd => exact List.mem_singleton.mp hr ▸ h
  | mul ra rb =>
    obtain ⟨ha, hb⟩ := h
    rcases List.mem_pair.mp hr with rfl | rfl
    · exact ha
    · exact hb

/-- Settles O24: a well-formed instruction meets neither reason for which a handler raises. -/
theorem wellFormedInstructionsComplete : Obligations.WellFormedInstructionsComplete := by
  refine ⟨exec_next, fun i s hwf hpop => ?_⟩
  obtain ⟨t, ht⟩ := exec_next i s
  rcases exec_cases ht with ⟨u, hu, rfl⟩ | ⟨f, hf, _⟩
  · obtain ⟨_, _, hfault⟩ := hu.frame
    exact ⟨_, ht, setPc_pc _ u, hfault⟩
  · rcases handlerOf_error hf with ⟨r, hr, hge, _⟩ | ⟨rd, hi, hempty, _⟩
    · exact absurd (validReg_of_mem_regOperands hwf hr) (Nat.not_lt.mpr hge)
    · exact absurd hempty (hpop rd hi)

/-- Settles O37, by the two ends of an instruction. -/
theorem execAllOrNothing : Obligations.ExecAllOrNothing := by
  intro i s t h
  rcases exec_cases h with ⟨u, hu, rfl⟩ | ⟨f, _, rfl⟩
  · obtain ⟨hmem, hplen, hfault⟩ := hu.frame
    exact .inr ⟨setPc_pc _ u, hfault, hmem, hplen, hu.status⟩
  · exact .inl ⟨f, rfl⟩

/-! ### Frames of the six instructions -/

/-- Of LDI and MUL: the one register that a completed handler writes is the destination. -/
theorem Effect.of_ldi_or_mul {i : Instr} {rd : Byte} {s u : State}
    (hi : (∃ x, i = .ldi rd x) ∨ (∃ x, i = .mul rd x)) (h : Effect s i u) :
    ∃ (hrd : rd.toNat < 8) (v : Byte), u = setReg rd.toNat hrd v s := by
  rcases hi with ⟨x, rfl⟩ | ⟨x, rfl⟩
  · cases h with
    | ldi _ _ hrd => exact ⟨hrd, x, rfl⟩
  · cases h with
    | mul _ _ v hrd => exact ⟨hrd, v, rfl⟩

/-- Settles O39: a completed handler wrote the destination register, a raise kept everything. -/
theorem ldiMulFrame : Obligations.LdiMulFrame := by
  intro i rd s t hi h
  rcases exec_cases h with ⟨u, hu, rfl⟩ | ⟨f, _, rfl⟩
  · obtain ⟨hrd, v, rfl⟩ := hu.of_ldi_or_mul hi
    exact ⟨fun q hq hne => setReg_other hrd hq v s hne, rfl, rfl, rfl, fun _ => rfl, .inl ⟨rfl, rfl⟩⟩
  · exact ⟨fun _ _ _ => rfl, rfl, rfl, rfl, fun _ => rfl, .inr ⟨rfl, rfl, rfl⟩⟩

/-- Settles O40: HLT cannot raise; a completed PRN appended one value, a raise kept everything. -/
theorem hltPrnFrame : Obligations.HltPrnFrame := by
  rintro i s t (rfl | ⟨rs, rfl⟩) h
  · cases (exec_hlt s).symm.trans h
    exact ⟨rfl, rfl, rfl, fun _ => rfl, fun _ => ⟨rfl, rfl⟩, fun hne => absurd rfl hne⟩
  · rcases exec_cases h with ⟨u, hu, rfl⟩ | ⟨f, _, rfl⟩
    · cases hu with
      | prn _ v => exact ⟨rfl, rfl, rfl, fun _ => rfl, nofun, fun _ => .inl ⟨rfl, rfl, v, rfl⟩⟩
    · exact ⟨rfl, rfl, rfl, fun _ => rfl, nofun, fun _ => .inr ⟨rfl, rfl, rfl⟩⟩

/-- Settles O41: a completed PUSH added one entry, a completed POP took one and wrote its destination, a
raise kept everything. -/
theorem pushPopFrame : Obligations.PushPopFrame := by
  constructor
  · intro rs s t h
    rcases exec_cases h with ⟨u, hu, rfl⟩ | ⟨f, _, rfl⟩
    · cases hu with
      | push _ v => exact ⟨rfl, rfl, rfl, fun _ => rfl, .inl ⟨rfl, rfl, v, rfl⟩⟩
    · exact ⟨rfl, rfl, rfl, fun _ => rfl, .inr ⟨rfl, rfl, rfl⟩⟩
  · intro rd s t h
    rcases exec_cases h with ⟨u, hu, rfl⟩ | ⟨f, _, rfl⟩
    · cases hu with
      | pop _ v older hrd htop =>
        exact ⟨fun q hq hne => setReg_other hrd hq v _ hne, rfl, rfl, fun _ => rfl,
          .inl ⟨rfl, rfl, v, htop⟩⟩
    · exact ⟨fun _ _ _ => rfl, rfl, rfl, fun _ => rfl, .inr ⟨rfl, rfl, rfl, rfl⟩⟩

end Sys2Proof.Machine
end

section
/-! The step: when it is defined, which instruction it runs, what it leaves alone and how it ends a run
(40_execution_cycle.md and 60_exceptions.md). -/

namespace Sys2Proof.Machine

/-! ### Which instruction a step runs -/

/-- A RUNNING cycle inside the image dispatches what the decoder reads from the bytes at `pc`. -/
theorem cycle_of_decoded {opc : Mnemonic → Byte}
    {run : Instr → State → Host.Outcome State Fault Refusal} {s : State} {i : Instr}
    {rest : List Byte} (hs : s.status = .running) (hp : s.pc < s.plen)
    (hdec : decodeBytes opc (instrBytes s) = .ok (i, rest)) : cycle opc run s = run i s :=
  cycle_of_fetched hs hp ((fetch_ok_iff opc s i).mpr ⟨rest, hdec⟩)

/-- Settles O7: the cycle of the default build. -/
theorem stepRunsDecodedInstruction : Obligations.StepRunsDecodedInstruction :=
  fun _ _ _ hs hp hdec => cycle_of_decoded hs hp hdec

/-- Settles O8: the bytes at `pc` decode to the encoded instruction under the build's own map. -/
theorem anyBuildRunsEncodedInstruction : Obligations.AnyBuildRunsEncodedInstruction := by
  intro b hinj s i rest hs hp hbytes
  have hdec : decodeBytes b.opc (instrBytes s) = .ok (i, rest) := by
    rw [hbytes, decodeOfEncode b.opc hinj]
  exact cycle_of_decoded hs hp hdec

/-- Settles O9: the two cycles have one opcode map, and their dispatches are equal. -/
theorem defaultBuildIsTheMachine : Obligations.DefaultBuildIsTheMachine := by
  intro s
  rw [stepFor, execFor_default]
  rfl

/-! ### When a step is defined (rules R28 and R70) -/

theorem step_of_idle {s : State} (hs : s.status = .idle) : step s = .fault .notStarted := by
  simp only [step, cycle, hs]

theorem step_of_ended {s : State} (hs : s.status = .halted ∨ s.status = .faulted) :
    step s = .fault .runEnded := by
  rcases hs with hs | hs <;> simp only [step, cycle, hs]

/-- Settles O11: the idle row of the cycle, which is that of the reset state. -/
theorem idleEngineHasNoStep : Obligations.IdleEngineHasNoStep :=
  ⟨fun _ hs => step_of_idle hs, step_of_idle rfl⟩

/-- A RUNNING engine always has a step: the halt test, the fault of the fetch, or an instruction. -/
theorem step_next_of_running {s : State} (hs : s.status = .running) : ∃ t, step s = .next t := by
  rcases Nat.lt_or_ge s.pc s.plen with hp | hp
  · cases hf : fetch opcode s with
    | error f => exact ⟨_, cycle_of_fetch_fault hs hp hf⟩
    | ok i =>
      obtain ⟨t, ht⟩ := exec_next i s
      exact ⟨t, (cycle_of_fetched hs hp hf).trans ht⟩
  · exact ⟨_, haltTestHalts s hs hp⟩

/-- Settles O10: a RUNNING engine has a step, and only a RUNNING one answers a next state. -/
theorem stepDefinedExactlyWhenRunning : Obligations.StepDefinedExactlyWhenRunning :=
  ⟨fun _ => ⟨fun ⟨_, h⟩ => (cycle_cases h).1, step_next_of_running⟩, fun _ => step_of_ended⟩

/-! ### Everything a step can do -/

/-- What a step can make of a state: `step_to` ties it to the model. -/
inductive StepsTo (s : State) : State → Prop where
  | haltTest (hp : s.plen ≤ s.pc) : StepsTo s (setStatus .halted s)
  | fetchFault (f : FaultRecord) (hp : s.pc < s.plen) (hf : fetch opcode s = .error f) :
      StepsTo s (raise f s)
  | execFault (i : Instr) (f : FaultRecord) (hp : s.pc < s.plen) (hi : fetch opcode s = .ok i)
      (hf : handlerOf i s = .error f) : StepsTo s (raise f s)
  | completed (i : Instr) (u : State) (hp : s.pc < s.plen) (hi : fetch opcode s = .ok i)
      (hu : Effect s i u) : StepsTo s (setPc (s.pc + width i) u)

theorem step_to {s t : State} (h : step s = .next t) : s.status = .running ∧ StepsTo s t := by
  obtain ⟨hs, ⟨hp, rfl⟩ | ⟨hp, f, hf, rfl⟩ | ⟨hp, i, hi, ht⟩⟩ := cycle_cases h
  · exact ⟨hs, .haltTest hp⟩
  · exact ⟨hs, .fetchFault f hp hf⟩
  · rcases exec_cases ht with ⟨u, hu, rfl⟩ | ⟨f, hf, rfl⟩
    · exact ⟨hs, .completed i u hp hi hu⟩
    · exact ⟨hs, .execFault i f hp hi hf⟩

/-- Settles O16, over everything a step can do: no handler writes memory or PLEN. -/
theorem stepKeepsMemoryAndLength : Obligations.StepKeepsMemoryAndLength := by
  intro s t h
  have hkeep : t.mem = s.mem ∧ t.plen = s.plen := by
    cases (step_to h).2 with
    | haltTest | fetchFault | execFault => exact ⟨rfl, rfl⟩
    | completed i u _ _ hu =>
      obtain ⟨hmem, hplen, _⟩ := hu.frame
      exact ⟨hmem, hplen⟩
  obtain ⟨hmem, hplen⟩ := hkeep
  exact ⟨hmem, fun a => by rw [State.cell, State.cell, hmem], hplen⟩

/-! ### Faults (60_exceptions.md) -/

/-- A completed handler leaves a RUNNING engine RUNNING, except HLT's, which halts it. -/
theorem Effect.status_of_running {i : Instr} {s u : State} (h : Effect s i u)
    (hs : s.status = .running) : (i ≠ .hlt ∧ u.status = .running) ∨ (i = .hlt ∧ u.status = .halted) :=
  h.status.imp_left fun ⟨hi, hu⟩ => ⟨hi, hu.trans hs⟩

/-- A step that ends FAULTED is a fault entry, from the fetch or from the handler. -/
theorem step_faulted {s t : State} (h : step s = .next t) (ht : t.status = .faulted) :
    s.pc < s.plen ∧ ∃ f, t = raise f s ∧
      (fetch opcode s = .error f ∨ ∃ i, fetch opcode s = .ok i ∧ handlerOf i s = .error f) := by
  obtain ⟨hs, hto⟩ := step_to h
  cases hto with
  | haltTest => cases ht
  | fetchFault f hp hf => exact ⟨hp, f, rfl, .inl hf⟩
  | execFault i f hp hi hf => exact ⟨hp, f, rfl, .inr ⟨i, hi, hf⟩⟩
  | completed i u _ _ hu =>
    rcases hu.status_of_running hs with ⟨_, hrun⟩ | ⟨_, hhalt⟩
    · cases hrun.symm.trans ht
    · cases hhalt.symm.trans ht

/-- Settles O35: a step that ends FAULTED is a fault entry. -/
theorem faultsArePrecise : Obligations.FaultsArePrecise := by
  intro s t h ht
  obtain ⟨_, f, rfl, _⟩ := step_faulted h ht
  exact ⟨f, rfl⟩

/-- Settles O36: the fetch raises for an illegal byte or an operand past the memory, a handler for a bad
index or an empty stack, and nothing else raises. -/
theorem causeOfEachFault : Obligations.CauseOfEachFault := by
  intro s t f hfits h ht hrec
  obtain ⟨hp, g, rfl, hcause⟩ := step_faulted h ht
  obtain rfl : g = f := Option.some.inj hrec
  have hpc : s.pc < 256 := Nat.lt_of_lt_of_le hp hfits
  rcases hcause with hf | ⟨i, hi, hf⟩
  · rcases fetch_error hpc hf with ⟨rfl, hillegal⟩ | ⟨rfl, m, hm, hpast⟩
    · exact ⟨rfl, rfl, hillegal⟩
    · exact ⟨rfl, m, hm, hpc, hpast⟩
  · rcases handlerOf_error hf with ⟨r, hr, hge, rfl⟩ | ⟨rd, rfl, hempty, rfl⟩
    · obtain ⟨rest, hdec⟩ := (fetch_ok_iff opcode s i).mp hi
      exact ⟨hge, i, rest, r, hdec, hr, rfl⟩
    · obtain ⟨hbyte, _⟩ := fetch_ok hi
      exact ⟨rfl, hempty, hbyte⟩

/-! ### The end of a run and the stack pointer -/

/-- A step that ends HALTED is the halt test or HLT. -/
theorem step_halted {s t : State} (h : step s = .next t) (ht : t.status = .halted) :
    (s.plen ≤ s.pc ∧ t.pc = s.pc) ∨
    (s.pc < s.plen ∧ s.cell s.pc = opcode .hlt ∧ t.pc = s.pc + 1) := by
  obtain ⟨hs, hto⟩ := step_to h
  cases hto with
  | haltTest hp => exact .inl ⟨hp, rfl⟩
  | fetchFault | execFault => cases ht
  | completed i u hp hi hu =>
    rcases hu.status_of_running hs with ⟨_, hrun⟩ | ⟨rfl, _⟩
    · cases hrun.symm.trans ht
    · obtain ⟨hbyte, _⟩ := fetch_ok hi
      exact .inr ⟨hp, hbyte, rfl⟩

/-- Inside the image, at the opcode of HLT, a step halts. -/
theorem step_status_of_hlt {s t : State} (hp : s.pc < s.plen) (hfits : s.plen ≤ 256)
    (hbyte : s.cell s.pc = opcode .hlt) (h : step s = .next t) : t.status = .halted := by
  cases (hltStep s ⟨(step_to h).1, hp, hfits, hbyte⟩).symm.trans h
  rfl

theorem step_status_of_past_image {s t : State} (hp : s.plen ≤ s.pc) (h : step s = .next t) :
    t.status = .halted := by
  cases (haltTestHalts s (step_to h).1 hp).symm.trans h
  rfl

theorem step_status_ne_idle {s t : State} (h : step s = .next t) : t.status ≠ .idle := by
  obtain ⟨hs, hto⟩ := step_to h
  cases hto with
  | haltTest | fetchFault | execFault => exact nofun
  | completed i u _ _ hu =>
    rcases hu.status_of_running hs with ⟨_, hu⟩ | ⟨_, hu⟩ <;> simp [hu]

/-- Settles O55: HALTED comes from the halt test or HLT, FAULTED from a fault entry, which keeps `pc`. -/
theorem waysARunEnds : Obligations.WaysARunEnds := by
  intro s t hfits h
  refine ⟨⟨?_, ?_⟩, ?_, ?_, step_status_ne_idle h⟩
  · intro ht
    exact (step_halted h ht).imp (fun ⟨hp, _⟩ => hp) fun ⟨_, hbyte, _⟩ => hbyte
  · intro hend
    rcases Nat.lt_or_ge s.pc s.plen with hp | hp
    · exact step_status_of_hlt hp hfits (hend.resolve_left (Nat.not_le.mpr hp)) h
    · exact step_status_of_past_image hp h
  · intro ht
    rcases step_halted h ht with ⟨hp, hpc⟩ | ⟨hp, _, hpc⟩
    · rw [if_pos hp, hpc]
    · rw [if_neg (Nat.not_le.mpr hp), hpc]
  · intro ht
    obtain ⟨_, f, rfl, _⟩ := step_faulted h ht
    exact ⟨rfl, nofun⟩

/-- Settles O42: among the completed handlers only those of PUSH and POP write the stack, and the halt
test and the fault entry do not. -/
theorem onlyPushAndPopMoveSp : Obligations.OnlyPushAndPopMoveSp := by
  refine ⟨rfl, fun s t h => ?_⟩
  cases (step_to h).2 with
  | haltTest | fetchFault | execFault => exact .inl rfl
  | completed i u _ hi hu =>
    obtain ⟨rest, hdec⟩ := (fetch_ok_iff opcode s i).mp hi
    cases hu with
    | hlt | ldi | prn | mul => exact .inl rfl
    | push rs v =>
      have hsp : (s.stack ++ [v]).length = s.sp + 1 := List.length_append
      exact .inr (.inl ⟨rs, rest, hdec, hsp, rfl, List.dropLast_concat⟩)
    | pop rd v older hrd htop =>
      have hsp : older.length + 1 = s.sp := by simp [State.sp, htop]
      have holder : older = s.stack.dropLast := by rw [htop, List.dropLast_concat]
      exact .inr (.inr ⟨rd, rest, hdec, hsp, rfl, holder⟩)

end Sys2Proof.Machine
end

section
/-! What a step depends on: of the memory only its instruction's bytes (20_memory.md section 2), of the
output nothing (45_host_interfaces.md). -/

namespace Sys2Proof.Machine

/-- The state with another memory and another output. -/
def withMemOut (m : Memory) (o : List Byte) (s : State) : State := { s with mem := m, out := o }

/-! ### The handlers read no memory and no output, and only PRN's writes the output -/

theorem readOperand_withMemOut (m : Memory) (o : List Byte) (op : Byte) (s : State) :
    readOperand op (withMemOut m o s) = readOperand op s := rfl

theorem writeReg_withMemOut (m : Memory) (o : List Byte) (i v : Nat) (s : State) :
    writeReg i v (withMemOut m o s) = (writeReg i v s).map (withMemOut m o) := by
  by_cases h : i < Config.nreg
  · rw [writeReg_of_lt v _ h, writeReg_of_lt v s h]
    rfl
  · rw [writeReg_of_ge v _ h, writeReg_of_ge v s h]
    rfl

theorem mul_withMemOut (m : Memory) (o : List Byte) (ra rb : Byte) (s : State) :
    mul ra rb (withMemOut m o s) = (mul ra rb s).map (withMemOut m o) := by
  simp only [mul, readOperand_withMemOut]
  cases readOperand ra s with
  | error f => rfl
  | ok a =>
    cases readOperand rb s with
    | error f => rfl
    | ok b => exact writeReg_withMemOut m o _ _ s

theorem push_withMemOut (m : Memory) (o : List Byte) (rs : Byte) (s : State) :
    push Config.stackCapacity rs (withMemOut m o s) =
      (push Config.stackCapacity rs s).map (withMemOut m o) := by
  simp only [push, readOperand_withMemOut]
  cases readOperand rs s with
  | error f => rfl
  | ok v => rfl

theorem pop_withMemOut (m : Memory) (o : List Byte) (rd : Byte) (s : State) :
    pop rd (withMemOut m o s) = (pop rd s).map (withMemOut m o) := by
  unfold pop
  rcases popStack_cases s with ⟨hempty, h⟩ | ⟨older, v, htop, h⟩
  · rw [h, popStack_of_empty (s := withMemOut m o s) hempty]
    rfl
  · rw [h, popStack_of_top (s := withMemOut m o s) htop]
    exact writeReg_withMemOut m o _ _ (setStack older s)

theorem handlerOf_withMemOut {i : Instr} (hi : ∀ rs, i ≠ .prn rs) (m : Memory) (o : List Byte)
    (s : State) : handlerOf i (withMemOut m o s) = (handlerOf i s).map (withMemOut m o) := by
  cases i with
  | hlt => rfl
  | ldi rd imm => exact writeReg_withMemOut m o _ _ s
  | prn rs => exact absurd rfl (hi rs)
  | mul ra rb => exact mul_withMemOut m o ra rb s
  | push rs => exact push_withMemOut m o rs s
  | pop rd => exact pop_withMemOut m o rd s

theorem complete_withMemOut {n : Nat} {s t : State} {r : Except FaultRecord State}
    (h : complete n s r = .next t) (m : Memory) (o : List Byte) :
    complete n (withMemOut m o s) (r.map (withMemOut m o)) = .next (withMemOut m o t) := by
  rcases complete_cases h with ⟨u, rfl, rfl⟩ | ⟨f, rfl, rfl⟩ <;> rfl

/-! ### What an execution and a step emit -/

/-- `run` makes `t` of `s` by appending `e`, of at most one value, to the output, and does the same with
any memory and any output in their place under which `ok` holds of the state. -/
structure EmitsOnly (run : State → Host.Outcome State Fault Refusal) (ok : State → Prop)
    (s t : State) (e : List Byte) : Prop where
  out       : t.out = s.out ++ e
  atMost    : e.length ≤ 1
  elsewhere : ∀ m o, ok (withMemOut m o s) → run (withMemOut m o s) = .next (withMemOut m (o ++ e) t)

/-- Without PRN the output is kept, so nothing is emitted. -/
theorem EmitsOnly.of_silent {run : State → Host.Outcome State Fault Refusal} {ok : State → Prop}
    {s t : State} (hout : t.out = s.out)
    (h : ∀ m o, ok (withMemOut m o s) → run (withMemOut m o s) = .next (withMemOut m o t)) :
    EmitsOnly run ok s t [] where
  out := by rw [hout, List.append_nil]
  atMost := Nat.zero_le 1
  elsewhere m o hok := by rw [List.append_nil, h m o hok]

theorem Effect.out_of_ne_prn {i : Instr} {s u : State} (hi : ∀ rs, i ≠ .prn rs) (h : Effect s i u) :
    u.out = s.out := by
  cases h with
  | prn rs => exact absurd rfl (hi rs)
  | hlt | ldi | mul | push | pop => rfl

theorem exec_out_of_ne_prn {i : Instr} {s t : State} (hi : ∀ rs, i ≠ .prn rs)
    (h : exec i s = .next t) : t.out = s.out := by
  rcases exec_cases h with ⟨u, hu, rfl⟩ | ⟨f, _, rfl⟩
  · rw [setPc_out, hu.out_of_ne_prn hi]
  · rfl

theorem exec_emitsOnly {i : Instr} {s t : State} (h : exec i s = .next t) :
    ∃ e, EmitsOnly (exec i) (fun _ => True) s t e := by
  by_cases hi : ∀ rs, i ≠ .prn rs
  · refine ⟨[], .of_silent (exec_out_of_ne_prn hi h) fun m o _ => ?_⟩
    rw [exec_eq_complete] at h ⊢
    rw [handlerOf_withMemOut hi]
    exact complete_withMemOut h m o
  · obtain ⟨rs, rfl⟩ := not_forall_not.mp hi
    rcases Nat.lt_or_ge rs.toNat 8 with hrs | hrs
    · cases (exec_prn_of_lt s hrs).symm.trans h
      exact ⟨[s.regs[rs.toNat]], rfl, Nat.le_refl 1, fun m o _ => exec_prn_of_lt _ hrs⟩
    · cases (exec_prn_of_ge s hrs).symm.trans h
      exact ⟨[], .of_silent rfl fun m o _ => exec_prn_of_ge _ hrs⟩

/-- A step emits at most one value, and does the same with any memory and output under which it fetches
the same; the halt test fetches nothing. -/
theorem step_emitsOnly {s t : State} (h : step s = .next t) :
    ∃ e, EmitsOnly step (fun s' => s.pc < s.plen → fetch opcode s' = fetch opcode s) s t e := by
  obtain ⟨hs, ⟨hp, rfl⟩ | ⟨hp, f, hf, rfl⟩ | ⟨hp, i, hi, ht⟩⟩ := cycle_cases h
  · exact ⟨[], .of_silent rfl fun m o _ => haltTestHalts (withMemOut m o s) hs hp⟩
  · exact ⟨[], .of_silent rfl fun m o hfetch =>
      cycle_of_fetch_fault (s := withMemOut m o s) hs hp ((hfetch hp).trans hf)⟩
  · obtain ⟨e, he⟩ := exec_emitsOnly ht
    refine ⟨e, he.out, he.atMost, fun m o hfetch => ?_⟩
    calc step (withMemOut m o s) = exec i (withMemOut m o s) :=
          cycle_of_fetched (s := withMemOut m o s) hs hp ((hfetch hp).trans hi)
      _ = .next (withMemOut m (o ++ e) t) := he.elsewhere m o trivial

/-! ### The bytes a fetch reads -/

/-- A read of an operand byte gives the same in two states that agree on that byte. -/
theorem fetchOperand_congr {s s' : State} (hpc : s'.pc = s.pc) {n k : Nat}
    (h : k ≤ n → s'.cell (s.pc + k) = s.cell (s.pc + k)) :
    fetchOperand n k s' = fetchOperand n k s := by
  by_cases hk : k ≤ n
  · simp only [fetchOperand_of_present _ hk, memRead, hpc, h hk]
  · simp only [fetchOperand_of_absent _ hk]

/-- A fetch gives the same in two states that agree on the opcode byte and on the operand bytes its
opcode has. -/
theorem fetch_congr {opc : Mnemonic → Byte} {s s' : State} (hpc : s'.pc = s.pc)
    (hop : s'.cell s.pc = s.cell s.pc)
    (hargs : ∀ mn, lookup opc (s.cell s.pc) = some mn → ∀ k, 1 ≤ k → k ≤ operandCount mn →
      s'.cell (s.pc + k) = s.cell (s.pc + k)) : fetch opc s' = fetch opc s := by
  have hread : memRead s.pc s' = memRead s.pc s := by simp only [memRead, hop]
  by_cases hmem : s.pc < Config.memSize
  · cases hm : lookup opc (s.cell s.pc) with
    | none => simp only [fetch, hpc, hread, memRead_of_lt s hmem, hm]
    | some mn =>
      have harg1 := fetchOperand_congr hpc (hargs mn hm 1 (Nat.le_refl 1))
      have harg2 := fetchOperand_congr hpc (hargs mn hm 2 (Nat.le_succ 1))
      simp only [fetch, hpc, hread, memRead_of_lt s hmem, hm, fetchOperands, harg1, harg2]
  · simp only [fetch, hpc, hread, memRead_of_ge s hmem]

/-- Settles O15: the other memory gives the same fetch, so the same step. -/
theorem stepReadsOnlyItsInstruction : Obligations.StepReadsOnlyItsInstruction := by
  intro s t m h hop hargs
  obtain ⟨e, he⟩ := step_emitsOnly h
  refine ⟨?_, (stepKeepsMemoryAndLength s t h).1⟩
  calc step (setMem m s) = step (withMemOut m s.out s) := rfl
    _ = .next (withMemOut m (s.out ++ e) t) :=
        he.elsewhere m s.out fun hp => fetch_congr rfl (hop hp) (hargs hp)
    _ = .next (setMem m t) := by rw [← he.out]; rfl

/-- Settles O17: a fetch does not look at the output. -/
theorem outputNeverReadBack : Obligations.OutputNeverReadBack := by
  intro s t o h
  obtain ⟨e, he⟩ := step_emitsOnly h
  have hmem : t.mem = s.mem := (stepKeepsMemoryAndLength s t h).1
  refine ⟨e, he.out, he.atMost, ?_⟩
  calc step { s with out := o } = step (withMemOut s.mem o s) := rfl
    _ = .next (withMemOut s.mem (o ++ e) t) := he.elsewhere s.mem o fun _ => rfl
    _ = .next { t with out := o ++ e } := by rw [← hmem]; rfl

end Sys2Proof.Machine
end

section
/-! The machine as a whole: the invariant of every step, the end of every run and the stack that is
never full (40_execution_cycle.md section 2, 44_stack_push_pop.md). -/

namespace Sys2Proof.Machine

/-! ### Every step keeps the invariant -/

theorem possibleCause_of_fetch {s : State} {f : FaultRecord} (hpc : s.pc < Config.memSize)
    (h : fetch opcode s = .error f) : possibleCause f := by
  rcases fetch_error hpc h with ⟨rfl, _⟩ | ⟨rfl, _⟩ <;> trivial

/-- The default stack is unbounded, so no handler raises `StackOverflow` (decisions D5 and D6). -/
theorem possibleCause_of_handlerOf {i : Instr} {s : State} {f : FaultRecord}
    (h : handlerOf i s = .error f) : possibleCause f := by
  rcases handlerOf_error h with ⟨_, _, _, rfl⟩ | ⟨_, _, _, rfl⟩ <;> trivial

/-- The depth bound of rule R108 for one instruction: PUSH adds one entry and is two bytes wide, and no
other instruction adds any. -/
theorem Effect.depth {i : Instr} {s u : State} (h : Effect s i u) : 2 * u.sp ≤ 2 * s.sp + width i := by
  cases h with
  | hlt | ldi | prn | mul => exact Nat.le_add_right _ _
  | push rs v =>
    have hsp : (setStack (s.stack ++ [v]) s).sp = s.sp + 1 := List.length_append
    have hwidth : width (.push rs) = 2 := rfl
    omega
  | pop rd v older hrd htop =>
    have hsp : s.sp = older.length + 1 := by simp [State.sp, htop]
    have hdepth : 2 * older.length ≤ 2 * s.sp := by omega
    exact Nat.le_add_right_of_le hdepth

/-- A fetched instruction ends inside the memory. -/
theorem pc_add_width_le {s : State} {i : Instr} (h : fetch opcode s = .ok i) :
    s.pc + width i ≤ 256 := by
  obtain ⟨_, hfits⟩ := fetch_ok h
  have hwidth : width i = 1 + operandCount (mnemonicOf i) := rfl
  simp only [Config.memSize] at hfits
  omega

theorem Inv.raise {s : State} (h : Inv s) {f : FaultRecord} (hf : possibleCause f) :
    Inv (raise f s) where
  memWf := h.memWf
  pcRange := h.pcRange
  plenRange := h.plenRange
  record := by simp
  cause g hg := Option.some.inj hg ▸ hf
  depth := h.depth

/-- While the engine has not FAULTED there is no fault record. -/
theorem Inv.fault_eq_none {s : State} (h : Inv s) (hs : s.status = .running) : s.fault = none := by
  have hrecord := h.record
  simpa [hs] using hrecord

theorem Inv.halt {s : State} (h : Inv s) (hs : s.status = .running) : Inv (setStatus .halted s) where
  memWf := h.memWf
  pcRange := h.pcRange
  plenRange := h.plenRange
  record := by simp [h.fault_eq_none hs]
  cause := h.cause
  depth := h.depth

theorem Inv.complete {s u : State} {i : Instr} (h : Inv s) (hs : s.status = .running)
    (hi : fetch opcode s = .ok i) (hu : Effect s i u) : Inv (setPc (s.pc + width i) u) := by
  obtain ⟨hmem, hplen, hfault⟩ := hu.frame
  have hnone : u.fault = none := hfault.trans (h.fault_eq_none hs)
  have hstatus : u.status ≠ .faulted := by
    rcases hu.status_of_running hs with ⟨_, hu⟩ | ⟨_, hu⟩ <;> simp [hu]
  have hdepth := hu.depth
  have hdepth' := h.depth
  exact {
    memWf := hmem ▸ h.memWf
    pcRange := pc_add_width_le hi
    plenRange := hplen ▸ h.plenRange
    record := by simp [hnone, hstatus]
    cause := by simp [hnone]
    depth := by rw [setPc_sp, setPc_pc]; omega }

/-- Settles O58, over everything a step can do. -/
theorem stepKeepsInvariant : Obligations.StepKeepsInvariant := by
  intro s t hinv h
  obtain ⟨hs, hto⟩ := step_to h
  cases hto with
  | haltTest => exact hinv.halt hs
  | fetchFault f hp hf =>
    exact hinv.raise (possibleCause_of_fetch (Nat.lt_of_lt_of_le hp hinv.plenRange) hf)
  | execFault i f _ _ hf => exact hinv.raise (possibleCause_of_handlerOf hf)
  | completed i u _ hi hu => exact hinv.complete hs hi hu

/-! ### Every run ends -/

theorem run_of_next {M : Host.Core} {s t : M.State} (k : Nat) (h : M.step s = .next t) :
    M.run (k + 1) s = M.run k t := by
  simp only [Host.Core.run, h]

/-- Every instruction but HLT is at least two bytes wide. -/
theorem two_le_width {i : Instr} (hi : i ≠ .hlt) : 2 ≤ width i := by
  cases i with
  | hlt => exact absurd rfl hi
  | ldi | mul => exact Nat.le_succ 2
  | prn | push | pop => exact Nat.le_refl 2

/-- A step ends the run, or it stays RUNNING, walked over at least two bytes and kept PLEN. -/
theorem step_ends_or_walks {s t : State} (h : step s = .next t) :
    (t.status = .halted ∨ t.status = .faulted) ∨
    (t.status = .running ∧ s.pc < s.plen ∧ s.pc + 2 ≤ t.pc ∧ t.plen = s.plen) := by
  obtain ⟨hs, hto⟩ := step_to h
  cases hto with
  | haltTest => exact .inl (.inl rfl)
  | fetchFault | execFault => exact .inl (.inr rfl)
  | completed i u hp _ hu =>
    obtain ⟨_, hplen, _⟩ := hu.frame
    rcases hu.status_of_running hs with ⟨hi, hrun⟩ | ⟨_, hhalt⟩
    · exact .inr ⟨hrun, hp, Nat.add_le_add_left (two_le_width hi) s.pc, hplen⟩
    · exact .inl (.inl hhalt)

/-- With at most `2 * n` bytes of the image ahead, a RUNNING engine ends within `n + 1` steps: each step
that does not end the run walks over two bytes, and the halt test ends it past the image. -/
theorem run_ends_within (n : Nat) {s : State} (hs : s.status = .running) (hn : s.plen - s.pc ≤ 2 * n) :
    ∃ (k : Nat) (t : State), k ≤ n + 1 ∧ Host.Core.run Sys2Proof.core k s = .next t ∧
      (t.status = .halted ∨ t.status = .faulted) := by
  induction n generalizing s with
  | zero =>
    have hhalt : step s = .next (setStatus .halted s) := haltTestHalts s hs (by omega)
    exact ⟨1, setStatus .halted s, Nat.le_refl 1, run_of_next (M := Sys2Proof.core) 0 hhalt, .inl rfl⟩
  | succ n ih =>
    obtain ⟨u, hu⟩ := step_next_of_running hs
    rcases step_ends_or_walks hu with hend | ⟨hrun, hp, hpc, hplen⟩
    · exact ⟨1, u, by omega, run_of_next (M := Sys2Proof.core) 0 hu, hend⟩
    · obtain ⟨k, t, hk, ht, hend⟩ := ih hrun (by omega)
      exact ⟨k + 1, t, by omega, (run_of_next (M := Sys2Proof.core) k hu).trans ht, hend⟩

/-- Settles O59: `PLEN - pc` bytes ahead are at most twice their half, rounded up, and PLEN is at most
256. -/
theorem everyRunEnds : Obligations.EveryRunEnds := by
  intro s hinv hs
  have hplen := hinv.plenRange
  obtain ⟨k, t, hk, ht, hend⟩ :=
    run_ends_within ((s.plen - s.pc + 1) / 2) hs (by omega)
  exact ⟨k, t, by omega, by omega, ht, hend⟩

/-! ### A stack of 128 entries is never full -/

/-- Two cycles with one opcode map agree where their dispatches agree on the fetched instruction. -/
theorem cycle_congr {opc : Mnemonic → Byte}
    {run run' : Instr → State → Host.Outcome State Fault Refusal} {s : State}
    (h : ∀ i, s.pc < s.plen → run i s = run' i s) : cycle opc run s = cycle opc run' s := by
  have hrunning : runningCycle opc run s = runningCycle opc run' s := by
    rcases Nat.lt_or_ge s.pc s.plen with hp | hp
    · simp only [runningCycle, h _ hp]
    · rw [runningCycle_of_past_image hp, runningCycle_of_past_image hp]
  simp only [cycle, hrunning]

/-- Where the stack is not full a finite build executes every instruction as the unbounded machine. -/
theorem execFor_of_room {C : Nat} {s : State} (h : s.sp < C) (i : Instr) :
    execFor ⟨opcode, some C⟩ i s = exec i s := by
  cases i with
  | push rs =>
    have hroom : some C ≠ some s.sp := fun hC => Nat.ne_of_gt h (Option.some.inj hC)
    rcases Nat.lt_or_ge rs.toNat 8 with hrs | hrs
    · exact (execPushWith_of_lt hrs hroom).trans (exec_push_of_lt s hrs).symm
    · exact (execPushWith_of_ge _ s hrs).trans (execPushWith_of_ge _ s hrs).symm
  | hlt | ldi | prn | mul | pop => rfl

/-- Inside the image the invariant bounds the stack by half of `pc`, so 128 entries are never reached. -/
theorem stepFor_of_large_stack {C : Nat} (hC : 128 ≤ C) {s : State} (hinv : Inv s) :
    stepFor ⟨opcode, some C⟩ s = step s := by
  refine cycle_congr fun i hp => execFor_of_room ?_ i
  have hdepth := hinv.depth
  have hplen := hinv.plenRange
  omega

/-- Settles O60, by induction on the number of steps: one step is the same, and it keeps the invariant. -/
theorem largeStackIsUnbounded : Obligations.LargeStackIsUnbounded := by
  intro C hC s hinv k
  induction k generalizing s with
  | zero => rfl
  | succ k ih =>
    simp only [Host.Core.run, stepFor_of_large_stack hC hinv]
    cases h : step s with
    | next t => exact ih t (stepKeepsInvariant s t hinv h)
    | fault f => rfl
    | refused r => rfl

end Sys2Proof.Machine
end
